-- ==== Sys2Proof/Word.lean ====
section
/-! DEFINITION. The word of the machine: every memory cell, the program counter, an address, the pending input and the last output
hold a mathematical integer (R7, R21, R23, R40; decision D1). The other files write `Int` for it, so that Lean's integer arithmetic applies as it stands. -/

namespace Sys2Proof

/-- The content of a cell or register, and an address: an integer of no fixed width (R7). -/
abbrev Word := Int

end Sys2Proof
end

