-- ==== Sys2Proof/Syntax.lean ====
section
/-! DEFINITION. The instructions: one constructor of `Instr` for each row of spec/opcode_table.json (R66), carrying the
parameters of its declared slots. -/

namespace Sys2Proof

/-- The mode digit of a parameter slot (R65): 0 is direct, 1 is immediate; a digit 2 to 9 is no mode, yet it is part of
the decode result and raises only when its slot is resolved (R64, R65). -/
inductive Mode where
  | direct
  | immediate
  | other (digit : Nat)
  deriving DecidableEq, Repr

/-- A parameter: "a (raw value, mode) pair" (R12, R84). -/
structure Param where
  mode : Mode
  raw  : Int
  deriving DecidableEq, Repr

/-- The nine opcodes as a closed type (R66, R88). -/
inductive Opcode where
  | add | mul | store | out | jumpIfTrue | jumpIfFalse | lessThan | equals | halt
  deriving DecidableEq, Repr

/-- A decoded instruction (R66, R67): `a`, `b` are read slots, `t` a jump's target slot (read), `d` a destination. -/
inductive Instr where
  | add (a b d : Param)
  | mul (a b d : Param)
  | store (d : Param)
  | out (a : Param)
  | jumpIfTrue (a t : Param)
  | jumpIfFalse (a t : Param)
  | lessThan (a b d : Param)
  | equals (a b d : Param)
  | halt
  deriving DecidableEq, Repr

end Sys2Proof
end

