-- ==== Sys2Proof/WellFormed.lean ====
section
/-! DEFINITION. Which instructions can stand in memory: those whose mode digits are decimal digits with one spelling each
(R7: a mode is "an integer digit 0..9"; R65). Raw values are any integer (R21, R72), and an immediate or unknown mode in a
destination slot is no ill-formedness: it decodes, and raises when it is resolved (R64, R71). -/

namespace Sys2Proof

/-- 0 and 1 are spelled `direct` and `immediate`; `other` holds a digit 2 to 9 (R65). -/
def Mode.wf : Mode → Bool
  | .direct => true
  | .immediate => true
  | .other d => decide (2 ≤ d) && decide (d ≤ 9)

def Param.wf (p : Param) : Bool := p.mode.wf

/-- Every declared slot holds a well-formed mode. -/
def Instr.wf : Instr → Bool
  | .add a b d => a.wf && b.wf && d.wf
  | .mul a b d => a.wf && b.wf && d.wf
  | .store d => d.wf
  | .out a => a.wf
  | .jumpIfTrue a t => a.wf && t.wf
  | .jumpIfFalse a t => a.wf && t.wf
  | .lessThan a b d => a.wf && b.wf && d.wf
  | .equals a b d => a.wf && b.wf && d.wf
  | .halt => true

end Sys2Proof
end

