-- ==== Sys2Proof/Decode.lean ====
section
/-! DEFINITION. The decoder and the encoder (30_encoding.md). The encoding is decimal: the fields of an instruction word
are decimal digits (R8, R61, R62). The decoder is total on any list of cells and rejects by name (R74). -/

namespace Sys2Proof

/-! ## The dispatch table (R66) -/

/-- The number in the low two digits (R66). -/
def Opcode.number : Opcode → Nat
  | .add => 1
  | .mul => 2
  | .store => 3
  | .out => 4
  | .jumpIfTrue => 5
  | .jumpIfFalse => 6
  | .lessThan => 7
  | .equals => 8
  | .halt => 99

/-- The number of parameter cells, a destination included (R66). -/
def Opcode.paramCount : Opcode → Nat
  | .add => 3
  | .mul => 3
  | .store => 1
  | .out => 1
  | .jumpIfTrue => 2
  | .jumpIfFalse => 2
  | .lessThan => 3
  | .equals => 3
  | .halt => 0

/-- The opcode with a given number; every number that is not in the table has none (R66, R69). -/
def Opcode.ofNumber (n : Nat) : Option Opcode :=
  match n with
  | 1 => some .add
  | 2 => some .mul
  | 3 => some .store
  | 4 => some .out
  | 5 => some .jumpIfTrue
  | 6 => some .jumpIfFalse
  | 7 => some .lessThan
  | 8 => some .equals
  | 99 => some .halt
  | _ => none

/-- The opcode of an instruction (R66). -/
def Instr.opcode : Instr → Opcode
  | .add _ _ _ => .add
  | .mul _ _ _ => .mul
  | .store _ => .store
  | .out _ => .out
  | .jumpIfTrue _ _ => .jumpIfTrue
  | .jumpIfFalse _ _ => .jumpIfFalse
  | .lessThan _ _ _ => .lessThan
  | .equals _ _ _ => .equals
  | .halt => .halt

/-- The parameters in the order of their slots (R60, R67). -/
def Instr.params : Instr → List Param
  | .add a b d => [a, b, d]
  | .mul a b d => [a, b, d]
  | .store d => [d]
  | .out a => [a]
  | .jumpIfTrue a t => [a, t]
  | .jumpIfFalse a t => [a, t]
  | .lessThan a b d => [a, b, d]
  | .equals a b d => [a, b, d]
  | .halt => []

/-- The destination slot, for the instructions that have one (R66, R67). -/
def Instr.destination : Instr → Option Param
  | .add _ _ d => some d
  | .mul _ _ d => some d
  | .store d => some d
  | .out _ => none
  | .jumpIfTrue _ _ => none
  | .jumpIfFalse _ _ => none
  | .lessThan _ _ d => some d
  | .equals _ _ d => some d
  | .halt => none

/-! ## Decimal fields -/

/-- `digit(w, k)`: the decimal digit of `w` at position `k` from the right, 0 where `w` has none (R8). -/
def digit (w k : Nat) : Nat := w / 10 ^ k % 10

/-- The mode a digit stands for (R65). -/
def Mode.ofDigit (d : Nat) : Mode :=
  match d with
  | 0 => .direct
  | 1 => .immediate
  | k => .other k

/-- The digit of a mode (R65). -/
def Mode.digit : Mode → Nat
  | .direct => 0
  | .immediate => 1
  | .other k => k

/-- The mode of parameter slot `i`, numbered from 1: digit position `i + 1` of the word (R61). -/
def slotMode (w i : Nat) : Mode := Mode.ofDigit (Sys2Proof.digit w (i + 1))

/-! ## The decoder -/

/-- Why a list of cells is no instruction. -/
inductive DecodeError where
  /-- There is no cell to read the instruction word from. -/
  | noWord
  /-- A negative instruction word has no opcode (R63). -/
  | negativeWord (w : Int)
  /-- The low two digits are not in the dispatch table (R69). -/
  | unknownOpcode (op : Nat) (w : Int)
  /-- The cell of this parameter slot, the lowest one missing, is not there (R84). -/
  | missingParameter (op : Opcode) (slot : Nat)
  deriving DecidableEq, Repr

/-- The opcode of an instruction word: none for a negative word (R63), else `w mod 100` looked up in the table (R61, R66). -/
def decodeOpcode (w : Int) : Except DecodeError Opcode :=
  if w < 0 then .error (.negativeWord w)
  else
    match Opcode.ofNumber (w.toNat % 100) with
    | some op => .ok op
    | none => .error (.unknownOpcode (w.toNat % 100) w)

/-- One parameter cell after the word (formats F1R and F1W, R67). -/
def decodeF1 (op : Opcode) (mk : Param → Instr) (w : Nat) (cells : List Int) :
    Except DecodeError (Instr × List Int) :=
  match cells with
  | r1 :: rest => .ok (mk ⟨slotMode w 1, r1⟩, rest)
  | [] => .error (.missingParameter op 1)

/-- Two parameter cells after the word (format F2, R67). -/
def decodeF2 (op : Opcode) (mk : Param → Param → Instr) (w : Nat) (cells : List Int) :
    Except DecodeError (Instr × List Int) :=
  match cells with
  | r1 :: r2 :: rest => .ok (mk ⟨slotMode w 1, r1⟩ ⟨slotMode w 2, r2⟩, rest)
  | [_] => .error (.missingParameter op 2)
  | [] => .error (.missingParameter op 1)

/-- Three parameter cells after the word (format F3, R67). -/
def decodeF3 (op : Opcode) (mk : Param → Param → Param → Instr) (w : Nat) (cells : List Int) :
    Except DecodeError (Instr × List Int) :=
  match cells with
  | r1 :: r2 :: r3 :: rest => .ok (mk ⟨slotMode w 1, r1⟩ ⟨slotMode w 2, r2⟩ ⟨slotMode w 3, r3⟩, rest)
  | [_, _] => .error (.missingParameter op 3)
  | [_] => .error (.missingParameter op 2)
  | [] => .error (.missingParameter op 1)

/-- The parameter cells of an opcode, in its format (R66, R67); digits above its slots are not looked at (R62). -/
def decodeParams (op : Opcode) (w : Nat) (cells : List Int) : Except DecodeError (Instr × List Int) :=
  match op with
  | .add => decodeF3 .add Instr.add w cells
  | .mul => decodeF3 .mul Instr.mul w cells
  | .store => decodeF1 .store Instr.store w cells
  | .out => decodeF1 .out Instr.out w cells
  | .jumpIfTrue => decodeF2 .jumpIfTrue Instr.jumpIfTrue w cells
  | .jumpIfFalse => decodeF2 .jumpIfFalse Instr.jumpIfFalse w cells
  | .lessThan => decodeF3 .lessThan Instr.lessThan w cells
  | .equals => decodeF3 .equals Instr.equals w cells
  | .halt => .ok (.halt, cells)

/-- The instruction at the head of a list of cells, and the cells after it (R60, R61, R68). -/
def decode (cells : List Int) : Except DecodeError (Instr × List Int) :=
  match cells with
  | [] => .error .noWord
  | w :: rest =>
    match decodeOpcode w with
    | .error e => .error e
    | .ok op => decodeParams op w.toNat rest

/-! ## The encoder -/

/-- The canonical instruction word `op + 100*m1 + 1000*m2 + 10000*m3`, a missing slot counted as mode 0 (R75). -/
def canonicalWord (op : Opcode) (m1 m2 m3 : Mode) : Int :=
  ((op.number + 100 * m1.digit + 1000 * m2.digit + 10000 * m3.digit : Nat) : Int)

/-- The cells of an instruction: its canonical word, then the raw value of each slot (R60, R75). -/
def encode : Instr → List Int
  | .add a b d => [canonicalWord .add a.mode b.mode d.mode, a.raw, b.raw, d.raw]
  | .mul a b d => [canonicalWord .mul a.mode b.mode d.mode, a.raw, b.raw, d.raw]
  | .store d => [canonicalWord .store d.mode .direct .direct, d.raw]
  | .out a => [canonicalWord .out a.mode .direct .direct, a.raw]
  | .jumpIfTrue a t => [canonicalWord .jumpIfTrue a.mode t.mode .direct, a.raw, t.raw]
  | .jumpIfFalse a t => [canonicalWord .jumpIfFalse a.mode t.mode .direct, a.raw, t.raw]
  | .lessThan a b d => [canonicalWord .lessThan a.mode b.mode d.mode, a.raw, b.raw, d.raw]
  | .equals a b d => [canonicalWord .equals a.mode b.mode d.mode, a.raw, b.raw, d.raw]
  | .halt => [canonicalWord .halt .direct .direct .direct]

/-! ## The opcode table's words -/

/-- The cells of a table word: the row's number is the decimal instruction word itself, and its parameter cells, to which
the table gives no bits, are zeros (DESIGN CHOICE, log 5). -/
def tableCells (w : Nat) : List Int := [(w : Int), 0, 0, 0]

/-- What the decoder reads from a table word. `nbits` does not matter: the word's bits above it are 0 (log 5). -/
def decodeTableWord (nbits w : Nat) : Option Instr :=
  match nbits, decode (tableCells w) with
  | _, .ok (i, _) => some i
  | _, .error _ => none

end Sys2Proof
end

