-- ==== Sys2Proof/Config.lean ====
section
/-! DEFINITION. The implementation parameters of R6 that are not the program's length. They are fixed for the life of a
machine (R33). No value of the spec is left free (93_implementation_defined.md), so there is no opaque constant here. -/

namespace Sys2Proof

/-- The parameters of 00_scope.md R6. -/
structure Config where
  /-- `WORD_BITS`: `none` for unbounded integers, `some N` for a realisation of `N` bits (R6, R174). -/
  wordBits : Option Nat
  /-- `DEFAULT_INPUT`: the reset value of `PENDING_INPUT` (R6, R34). -/
  defaultInput : Int
  /-- `SELF_TEST`: whether the self-test diagnostic of R170 is on (R6). -/
  selfTest : Bool
  deriving DecidableEq, Repr

/-- The defaults of R6: unbounded words, default input 1, self-test off. -/
def Config.default : Config := { wordBits := none, defaultInput := 1, selfTest := false }

end Sys2Proof
end

