-- ==== Sys2Proof/Machine/State.lean ====
section
/-! DEFINITION. The state of the machine as plain data (10_state.md), the error record (60_exceptions.md R161), the reasons a
step can stop, and the state after reset. -/

namespace Sys2Proof.Machine

/-- The memory `M` (R21). `len` is `MEM_LEN` (R22). `cells` lists (address, value) in ONE canonical form, said by
`Memory.wf`: addresses strictly rising and below `len`, no value 0; a cell of `[0, len)` that is not listed holds 0. How the sequence is
held is the model's choice (DESIGN CHOICE, log 1): every sequence of `len` integers has exactly one such form. -/
structure Memory where
  len   : Nat
  cells : List (Nat × Int)
  deriving DecidableEq, Repr

/-- The listed cells from address `lo` on: strictly rising, below `len`, never 0. -/
def Memory.cellsOk (len : Nat) : Nat → List (Nat × Int) → Bool
  | _, [] => true
  | lo, (a, v) :: t => decide (lo ≤ a) && decide (a < len) && decide (v ≠ 0) && Memory.cellsOk len (a + 1) t

/-- The canonical form of a memory. -/
def Memory.wf (m : Memory) : Bool := Memory.cellsOk m.len 0 m.cells

/-- `STATUS` (R26). -/
inductive Status where
  | ready | running | halted | faulted
  deriving DecidableEq, Repr

/-- The kind of an access, as AddressOutOfBounds records it (R161). -/
inductive Access where
  | fetch | read | write
  deriving DecidableEq, Repr

/-- The `pc` field of AddressOutOfBounds: the faulting instruction's address, or `run-entry` (R161). -/
inductive ErrorPc where
  | at (pc : Int)
  | runEntry
  deriving DecidableEq, Repr

/-- The error record `ERROR` (R27, R161), one constructor for each error of R151 with the fields R161 gives it. Its
numeric code and its name are `ErrorRecord.code` and `ErrorRecord.name` (Ops.lean); an opcode of the table is held by name (DESIGN CHOICE, log 13). -/
inductive ErrorRecord where
  | unknownOpcode (pc : Int) (opcode : Option Nat) (word : Int)
  | invalidWriteMode (pc : Int) (opcode : Opcode) (slot : Nat) (raw : Int)
  | addressOutOfBounds (pc : ErrorPc) (opcode : Option Opcode) (access : Access) (slot : Option Nat) (address : Int)
  | unknownParameterMode (pc : Int) (opcode : Opcode) (slot : Nat) (mode : Nat)
  | selfTestFailure (pc : Int) (lastOp : Option Opcode) (lastOutput : Int)
  | wordOverflow (pc : Int) (opcode : Opcode) (value : Int)
  deriving DecidableEq, Repr

/-- The state (R20 to R28, R31). There are no registers, flags, modes or devices beside these (R20, R30 to R32). -/
structure State where
  /-- The parameters of R6; no state of the spec (R33), and never changed; held here so that one step covers every
  configuration (DESIGN CHOICE, log 2). -/
  config       : Config
  /-- `M` and `MEM_LEN` (R21, R22). -/
  mem          : Memory
  /-- `pc`: any integer (R23). -/
  pc           : Int
  /-- `PENDING_INPUT` (R24). -/
  pendingInput : Int
  /-- `LAST_OUTPUT`: `none` is `unset` (R25). -/
  lastOutput   : Option Int
  /-- `STATUS` (R26). -/
  status       : Status
  /-- `ERROR` (R27). -/
  error        : Option ErrorRecord
  /-- `LAST_OP`: `none` is `unset` (R28). -/
  lastOp       : Option Opcode
  deriving DecidableEq, Repr

/-- Why a step stops with a fault. The errors of R151 are NOT these: raising one is a next state (R160). -/
inductive Fault where
  /-- Raised by `step` alone, when it is asked of a machine whose `STATUS` is `Faulted`: no further step is taken (R26, R160, R163).
  It carries `ERROR`. Safe: the spec gives no transition here. -/
  | runFaulted (error : Option ErrorRecord)
  deriving DecidableEq, Repr

/-- Why something is refused. Every refusal is safe: the spec refuses the interaction or gives it no transition. -/
inductive Refusal where
  /-- An instruction that has no meaning yet. Raised by no arm of this model. Safe. -/
  | notModelled (mnemonic : String)
  /-- Raised by `step` in `Ready`: a step is taken only when `STATUS = Running` (R80). Safe. -/
  | notStarted
  /-- Raised by `step` in `Halted`: no instruction executes there (R26, R140). Safe. -/
  | alreadyHalted
  /-- Raised by `runEntry` outside `Ready` (R185). Safe. -/
  | runNotReady (status : Status)
  /-- Raised by `output` outside `Halted` (R186). Safe. -/
  | outputNotHalted (status : Status)
  /-- Raised by `output` in a halted state with no output and no cell 0, which no run reaches (R186; log 10). Safe. -/
  | outputWithoutMemory
  /-- Raised by `readMemory` outside `Halted` (R187, R188). Safe. -/
  | memoryNotHalted (status : Status)
  /-- Raised by `readStatus` outside `Halted` and `Faulted` (R188, R189). Safe. -/
  | statusNotEnded (status : Status)
  /-- Raised by `construct` under `WORD_BITS = some N` for a program cell out of range, a broken host duty (R189, C6; log 8). Safe. -/
  | programOutOfRange
  /-- Raised by `runEntry` under `WORD_BITS = some N` for a noun out of range, a broken host duty (R189, C6; log 8). Safe. -/
  | nounOutOfRange
  /-- Raised by `runEntry` under `WORD_BITS = some N` for a verb out of range, a broken host duty (R189, C6; log 8). Safe. -/
  | verbOutOfRange
  deriving DecidableEq, Repr

/-- The state after reset. Reset is construction from a program (R34, R180); this is the construction from the EMPTY program, the only one that
invents no cell (R180 accepts "any length n >= 0"), under the default parameters (DESIGN CHOICE, log 3). Every field has R34's value. -/
def State.reset : State where
  config       := Config.default
  mem          := { len := 0, cells := [] }
  pc           := 0
  pendingInput := Config.default.defaultInput
  lastOutput   := none
  status       := .ready
  error        := none
  lastOp       := none

end Sys2Proof.Machine
end

