-- ==== Sys2Proof/Machine/Ops.lean ====
section
/-! DEFINITION. The named operations: the memory bank (20_memory.md R42, R43), the writes of single registers, raising an error
(60_exceptions.md R160) and completing an instruction (40_execution_loop.md R86, R87). -/

namespace Sys2Proof.Machine

/-! ## Memory -/

/-- The value held at an address: the listed one, else 0. -/
def Memory.lookup : List (Nat × Int) → Nat → Int
  | [], _ => 0
  | (k, v) :: t, a => if k = a then v else Memory.lookup t a

/-- The cell list without the address `a`. -/
def Memory.erase : List (Nat × Int) → Nat → List (Nat × Int)
  | [], _ => []
  | (k, x) :: t, a => if k = a then Memory.erase t a else (k, x) :: Memory.erase t a

/-- The cell list with `(a, v)` added before the first higher address. -/
def Memory.place : List (Nat × Int) → Nat → Int → List (Nat × Int)
  | [], a, v => [(a, v)]
  | (k, x) :: t, a, v => if a < k then (a, v) :: (k, x) :: t else (k, x) :: Memory.place t a v

/-- The cell list with the value at `a` replaced, in canonical form: a 0 is not listed. -/
def Memory.insert (cells : List (Nat × Int)) (a : Nat) (v : Int) : List (Nat × Int) :=
  if v = 0 then Memory.erase cells a else Memory.place (Memory.erase cells a) a v

/-- `0 <= a < MEM_LEN` (R40). -/
def Memory.inBounds (m : Memory) (a : Int) : Bool := decide (0 ≤ a) && decide (a < (m.len : Int))

/-- `M[a]`, or nothing where the address is not one of memory (R42). -/
def Memory.read (m : Memory) (a : Int) : Option Int :=
  if m.inBounds a then some (Memory.lookup m.cells a.toNat) else none

/-- `M` with `v` at the valid address `a` and every other cell as it was (R43). -/
def Memory.put (m : Memory) (a : Int) (v : Int) : Memory :=
  { m with cells := Memory.insert m.cells a.toNat v }

/-- `M` after a write, or nothing where the address is not one of memory: memory does not grow (R22, R43). -/
def Memory.write (m : Memory) (a : Int) (v : Int) : Option Memory :=
  if m.inBounds a then some (m.put a v) else none

/-- The cells listed for a sequence whose first element stands at address `a`. -/
def Memory.cellsOf : Nat → List Int → List (Nat × Int)
  | _, [] => []
  | a, v :: t => if v = 0 then Memory.cellsOf (a + 1) t else (a, v) :: Memory.cellsOf (a + 1) t

/-- The memory that holds a sequence of integers (R21, R180). -/
def Memory.ofList (p : List Int) : Memory := { len := p.length, cells := Memory.cellsOf 0 p }

/-- The sequence of integers a memory holds, address 0 first (R187). -/
def Memory.toList (m : Memory) : List Int := (List.range m.len).map (Memory.lookup m.cells)

/-- The cells at `a, a+1, ..`, at most `n` of them, up to the end of memory. -/
def Memory.window (m : Memory) (a : Int) : Nat → List Int
  | 0 => []
  | n + 1 =>
    match m.read a with
    | some v => v :: Memory.window m (a + 1) n
    | none => []

/-! ## Single registers -/

def State.setMem (s : State) (m : Memory) : State := { s with mem := m }
def State.setPc (s : State) (a : Int) : State := { s with pc := a }
def State.setPendingInput (s : State) (v : Int) : State := { s with pendingInput := v }
def State.setLastOutput (s : State) (v : Int) : State := { s with lastOutput := some v }
def State.setStatus (s : State) (st : Status) : State := { s with status := st }
def State.setLastOp (s : State) (op : Opcode) : State := { s with lastOp := some op }

/-! ## Errors -/

/-- The numeric code of an error (R151). -/
def ErrorRecord.code : ErrorRecord → Nat
  | .unknownOpcode _ _ _ => 1
  | .invalidWriteMode _ _ _ _ => 2
  | .addressOutOfBounds _ _ _ _ _ => 3
  | .unknownParameterMode _ _ _ _ => 4
  | .selfTestFailure _ _ _ => 5
  | .wordOverflow _ _ _ => 6

/-- The name of an error (R151). -/
def ErrorRecord.name : ErrorRecord → String
  | .unknownOpcode _ _ _ => "UnknownOpcode"
  | .invalidWriteMode _ _ _ _ => "InvalidWriteMode"
  | .addressOutOfBounds _ _ _ _ _ => "AddressOutOfBounds"
  | .unknownParameterMode _ _ _ _ => "UnknownParameterMode"
  | .selfTestFailure _ _ _ => "SelfTestFailure"
  | .wordOverflow _ _ _ => "WordOverflow"

/-- `raise`: the run ends with `STATUS = Faulted` and the record in `ERROR`; nothing else changes, so `pc` stays at the
faulting instruction (R160). There is no handler and no return (R163). -/
def raiseError (e : ErrorRecord) (s : State) : State := { s with status := .faulted, error := some e }

/-! ## The memory bank with its error (R42, R43) -/

/-- `MemRead` for operand slot `slot` of an instruction at `pc` (R42). -/
def memRead (s : State) (op : Opcode) (slot : Nat) (a : Int) : Except ErrorRecord Int :=
  match s.mem.read a with
  | some v => .ok v
  | none => .error (.addressOutOfBounds (.at s.pc) (some op) .read (some slot) a)

/-- `MemWrite`, by an instruction or by the run entry (R43, R183): `pc`, `op` and `slot` are what the error records (R161). -/
def memWrite (s : State) (pc : ErrorPc) (op : Option Opcode) (slot : Option Nat) (a : Int) (v : Int) :
    Except ErrorRecord State :=
  match s.mem.write a v with
  | some m => .ok (s.setMem m)
  | none => .error (.addressOutOfBounds pc op .write slot a)

/-! ## The end of an instruction -/

/-- After the operation of `op`, started at `pc0`, returned `s`: `pc` advances by `param_count + 1` when it still is `pc0`
(R86, C3), and `LAST_OP` is set (R87). -/
def complete (op : Opcode) (pc0 : Int) (s : State) : State :=
  (if s.pc = pc0 then s.setPc (pc0 + (op.paramCount : Int) + 1) else s).setLastOp op

/-- The next state of an instruction started in `s`: completed, or `s` with the error raised, unchanged otherwise (R152, R160). -/
def conclude (op : Opcode) (s : State) (r : Except ErrorRecord State) : Host.Outcome State Fault Refusal :=
  match r with
  | .ok s' => .next (complete op s.pc s')
  | .error e => .next (raiseError e s)

end Sys2Proof.Machine
end

