-- ==== Sys2Proof/Machine/Flags.lean ====
section
/-! DEFINITION. The machine has no flags (R30). What stands in their place: the result of a comparison, the zero test of a
jump's condition, and the range check of a finite word width (R174). -/

namespace Sys2Proof.Machine

/-- The result a comparison writes: 1 when it holds, else 0 (R30, R130, R131). -/
def comparisonResult (b : Bool) : Int := if b then 1 else 0

/-- A condition holds when its value is not 0, negative values included (R120, R121). -/
def conditionHolds (v : Int) : Bool := decide (v ≠ 0)

/-- `v` lies in `[-2^(N-1), 2^(N-1))` (R174; for `N = 0`, no width: DESIGN CHOICE, log 9). -/
def fitsBits (n : Nat) (v : Int) : Bool :=
  decide (-(2 : Int) ^ (n - 1) ≤ v) && decide (v < (2 : Int) ^ (n - 1))

/-- The word is representable: always when `WORD_BITS = none`, else in the range of R174. -/
def wordFits (c : Config) (v : Int) : Bool :=
  match c.wordBits with
  | none => true
  | some n => fitsBits n v

/-- `CheckWord`: raises WordOverflow for an unrepresentable value and never wraps it (R174). -/
def checkWord (s : State) (op : Opcode) (v : Int) : Except ErrorRecord Unit :=
  if wordFits s.config v then .ok () else .error (.wordOverflow s.pc op v)

end Sys2Proof.Machine
end

