-- ==== Sys2Proof/Machine/Operands.lean ====
section
/-! DEFINITION. The operand-mode resolver (30_encoding.md R70 to R72): the two operand forms, direct and immediate. -/

namespace Sys2Proof.Machine

/-- `ReadOperand`: immediate is the raw value, direct is the cell it names, any other digit raises; the mode is checked
before the address (R70). -/
def readOperand (s : State) (op : Opcode) (slot : Nat) (p : Param) : Except ErrorRecord Int :=
  match p.mode with
  | .immediate => .ok p.raw
  | .direct => memRead s op slot p.raw
  | .other d => .error (.unknownParameterMode s.pc op slot d)

/-- `WriteOperand`: a destination must be direct; immediate is InvalidWriteMode, any other digit UnknownParameterMode (R71, D11). -/
def writeOperand (s : State) (op : Opcode) (slot : Nat) (p : Param) (v : Int) : Except ErrorRecord State :=
  match p.mode with
  | .immediate => .error (.invalidWriteMode s.pc op slot p.raw)
  | .direct => memWrite s (.at s.pc) (some op) (some slot) p.raw v
  | .other d => .error (.unknownParameterMode s.pc op slot d)

end Sys2Proof.Machine
end

