-- ==== Sys2Proof/Machine/Arith.lean ====
section
/-! DEFINITION. The arithmetic instructions add and mul (41_arithmetic.md). -/

namespace Sys2Proof.Machine

/-- Slot 1, slot 2, the exact result, its range check, then the destination (R85, R100, R101). -/
def arithmetic (op : Opcode) (f : Int → Int → Int) (a b d : Param) (s : State) : Except ErrorRecord State :=
  (readOperand s op 1 a).bind fun x =>
  (readOperand s op 2 b).bind fun y =>
  (checkWord s op (f x y)).bind fun _ =>
  writeOperand s op 3 d (f x y)

/-- `add`: the exact integer sum (R100, R102). -/
def execAdd (a b d : Param) (s : State) : Host.Outcome State Fault Refusal :=
  conclude .add s (arithmetic .add (fun x y => x + y) a b d s)

/-- `mul`: the exact integer product (R101, R102). -/
def execMul (a b d : Param) (s : State) : Host.Outcome State Fault Refusal :=
  conclude .mul s (arithmetic .mul (fun x y => x * y) a b d s)

end Sys2Proof.Machine
end

