-- ==== Sys2Proof/Machine/Compare.lean ====
section
/-! DEFINITION. The comparison instructions (44_compare.md). -/

namespace Sys2Proof.Machine

/-- Slot 1, slot 2, then 1 or 0 to the destination; no range check is made (R130, R131, R174). -/
def comparison (op : Opcode) (holds : Int → Int → Bool) (a b d : Param) (s : State) : Except ErrorRecord State :=
  (readOperand s op 1 a).bind fun x =>
  (readOperand s op 2 b).bind fun y =>
  writeOperand s op 3 d (comparisonResult (holds x y))

/-- `less-than` on signed integers (R130). -/
def execLessThan (a b d : Param) (s : State) : Host.Outcome State Fault Refusal :=
  conclude .lessThan s (comparison .lessThan (fun x y => decide (x < y)) a b d s)

/-- `equals` on integers (R131). -/
def execEquals (a b d : Param) (s : State) : Host.Outcome State Fault Refusal :=
  conclude .equals s (comparison .equals (fun x y => decide (x = y)) a b d s)

end Sys2Proof.Machine
end

