-- ==== Sys2Proof/Machine/Halt.lean ====
section
/-! DEFINITION. The halt instruction (45_halt.md). -/

namespace Sys2Proof.Machine

/-- `halt`: `STATUS` becomes `Halted` and nothing else changes: no advance, no `LAST_OP` (R140). -/
def execHalt (s : State) : Host.Outcome State Fault Refusal := .next (s.setStatus .halted)

end Sys2Proof.Machine
end

