-- ==== Sys2Proof/Machine/InOut.lean ====
section
/-! DEFINITION. The input and output instructions store and out (42_io.md). -/

namespace Sys2Proof.Machine

/-- `store`: the pending input, range-checked, goes to the destination; it is not consumed (R110, C2). -/
def execStore (d : Param) (s : State) : Host.Outcome State Fault Refusal :=
  conclude .store s <|
    (checkWord s .store s.pendingInput).bind fun _ =>
    writeOperand s .store 1 d s.pendingInput

/-- `out`: the operand becomes the last output (R111). -/
def execOut (a : Param) (s : State) : Host.Outcome State Fault Refusal :=
  conclude .out s <|
    (readOperand s .out 1 a).bind fun x =>
    .ok (s.setLastOutput x)

end Sys2Proof.Machine
end

