-- ==== Sys2Proof/Machine/Jump.lean ====
section
/-! DEFINITION. The conditional jumps (43_jumps.md). -/

namespace Sys2Proof.Machine

/-- The condition in slot 1; slot 2, the target, is resolved only when the jump is taken (R120, R121, D12). The advance of a jump not
taken, and of one taken to its own address, is `complete`'s (R86, C3). -/
def jump (op : Opcode) (taken : Int → Bool) (a t : Param) (s : State) : Except ErrorRecord State :=
  (readOperand s op 1 a).bind fun x =>
  if taken x then (readOperand s op 2 t).bind fun y => .ok (s.setPc y)
  else .ok s

/-- `jump-if-true`: taken when the condition is not 0 (R120). -/
def execJumpIfTrue (a t : Param) (s : State) : Host.Outcome State Fault Refusal :=
  conclude .jumpIfTrue s (jump .jumpIfTrue conditionHolds a t s)

/-- `jump-if-false`: taken when the condition is 0 (R121). -/
def execJumpIfFalse (a t : Param) (s : State) : Host.Outcome State Fault Refusal :=
  conclude .jumpIfFalse s (jump .jumpIfFalse (fun x => !conditionHolds x) a t s)

end Sys2Proof.Machine
end

