-- ==== Sys2Proof/Machine/Dispatch.lean ====
section
/-! DEFINITION. The dispatch: each of the nine opcodes has exactly one operation (40_execution_loop.md R88). -/

namespace Sys2Proof.Machine

def exec (i : Instr) (s : State) : Host.Outcome State Fault Refusal :=
  match i with
  | .add a b d => Sys2Proof.Machine.execAdd a b d s
  | .mul a b d => Sys2Proof.Machine.execMul a b d s
  | .store d => Sys2Proof.Machine.execStore d s
  | .out a => Sys2Proof.Machine.execOut a s
  | .jumpIfTrue a t => Sys2Proof.Machine.execJumpIfTrue a t s
  | .jumpIfFalse a t => Sys2Proof.Machine.execJumpIfFalse a t s
  | .lessThan a b d => Sys2Proof.Machine.execLessThan a b d s
  | .equals a b d => Sys2Proof.Machine.execEquals a b d s
  | .halt => Sys2Proof.Machine.execHalt s

end Sys2Proof.Machine
end

