-- ==== Sys2Proof/Machine/Fetch.lean ====
section
/-! DEFINITION. What a step does before it executes: fetch and decode, the self-test check and the parameter fetch, with
their errors in the order of 60_exceptions.md R162 (40_execution_loop.md R80 to R84). And the load that stands for a program placed from outside. -/

namespace Sys2Proof.Machine

/-- The most cells an instruction occupies: its word and three parameters (R66). -/
def longestInstr : Nat := 4

/-- The cells from `pc` on, as many as an instruction can have and memory holds (R60; DEDUCED, log 12). -/
def fetchCells (s : State) : List Int := s.mem.window s.pc longestInstr

/-- The self-test check: under `SELF_TEST`, an output that is set and is not 0 is a failure (R170). -/
def selfTestError (s : State) : Option ErrorRecord :=
  match s.lastOutput with
  | none => none
  | some v => if s.config.selfTest = true ∧ v ≠ 0 then some (.selfTestFailure s.pc s.lastOp v) else none

/-- The self-test check comes before what follows it (R162). -/
def afterSelfTest (s : State) (r : Except ErrorRecord Instr) : Except ErrorRecord Instr :=
  match selfTestError s with
  | some e => .error e
  | none => r

/-- The instruction a step executes, or the error it raises before executing (R80 to R84, R162): `pc` outside memory, a
negative word, halt (which ends the list), the self-test, an unknown opcode, a missing parameter cell. -/
def fetchInstr (s : State) : Except ErrorRecord Instr :=
  match decode (fetchCells s) with
  | .error .noWord => .error (.addressOutOfBounds (.at s.pc) none .fetch none s.pc)
  | .error (.negativeWord w) => .error (.unknownOpcode s.pc none w)
  | .error (.unknownOpcode op w) => afterSelfTest s (.error (.unknownOpcode s.pc (some op) w))
  | .error (.missingParameter op slot) =>
    afterSelfTest s (.error (.addressOutOfBounds (.at s.pc) (some op) .fetch (some slot) (s.pc + (slot : Int))))
  | .ok (i, _) => if i = .halt then .ok .halt else afterSelfTest s (.ok i)

/-- The cells of a memory with a list of values stored from address `a` on, grown to hold them. -/
def Memory.load (m : Memory) (a : Nat) : List Int → Memory
  | [] => m
  | v :: t => Memory.load ({ m with len := max m.len (a + 1) }.put (a : Int) v) (a + 1) t

/-- A table word loaded from outside the machine where the next step fetches, in a machine whose run has been entered (R180, R183; DESIGN CHOICE, log 4): the
cells at `pc` (a negative `pc` cannot be fetched from and becomes 0), `STATUS = Running` with no error, and no output that the self-test would fail on. -/
def loadWord (s : State) (w : Nat) : State :=
  { s with
    mem := s.mem.load s.pc.toNat (tableCells w)
    pc := (s.pc.toNat : Int)
    lastOutput := match selfTestError s with
      | some _ => none
      | none => s.lastOutput
    status := .running
    error := none }

end Sys2Proof.Machine
end

