-- ==== Sys2Proof/Machine/Step.lean ====
section
/-! DEFINITION. The step (40_execution_loop.md R80), and the host's way to place an instruction. -/

namespace Sys2Proof.Machine

/-- One iteration of the loop, taken only when `STATUS = Running` (R80): the instruction fetched is executed, or the error found
before that is raised (R160). In `Ready` and `Halted` no instruction executes and a `Faulted` machine takes no further step (R26, R163; DESIGN CHOICE, log 6). -/
def step (s : State) : Host.Outcome State Fault Refusal :=
  match s.status with
  | .running =>
    match fetchInstr s with
    | .ok i => exec i s
    | .error e => .next (raiseError e s)
  | .ready => .refused .notStarted
  | .halted => .refused .alreadyHalted
  | .faulted => .fault (.runFaulted s.error)

/-- `s` with the table word `w` placed so that the very next step runs it (log 4, log 5). The table's rows have no bits of their own,
so `nbits` adds nothing to `w`. -/
def State.withFetchWord (s : State) (nbits w : Nat) : State :=
  match nbits with
  | _ => loadWord s w

end Sys2Proof.Machine
end

