-- ==== Sys2Proof/Machine/Assembler.lean ====
section
/-! DEFINITION. The assembler's notation of 30_encoding.md R76 as abstract syntax, and the program it stands for. It has no semantics of its own
(decision D23): a listing is the sequence of integers. Labels are named by numbers (DESIGN CHOICE, log 11). -/

namespace Sys2Proof.Machine

/-- "`n` may be an integer literal or a label" (R76). -/
inductive AsmValue where
  | lit (n : Int)
  | label (name : Nat)
  deriving DecidableEq, Repr

/-- `[n]` is direct, `#n` is immediate (R76). -/
inductive AsmOperand where
  | direct (v : AsmValue)
  | immediate (v : AsmValue)
  deriving DecidableEq, Repr

/-- A line of a listing (R76). -/
inductive AsmLine where
  | add (a b d : AsmOperand)
  | mul (a b d : AsmOperand)
  | store (d : AsmOperand)
  | out (a : AsmOperand)
  | jumpIfTrue (a t : AsmOperand)
  | jumpIfFalse (a t : AsmOperand)
  | lessThan (a b d : AsmOperand)
  | equals (a b d : AsmOperand)
  | halt
  | word (n : Int)
  | label (name : Nat)
  deriving DecidableEq, Repr

/-- How many cells a line stands for (R60, R66, R76). -/
def AsmLine.size : AsmLine → Nat
  | .add _ _ _ => 4
  | .mul _ _ _ => 4
  | .store _ => 2
  | .out _ => 2
  | .jumpIfTrue _ _ => 3
  | .jumpIfFalse _ _ => 3
  | .lessThan _ _ _ => 4
  | .equals _ _ _ => 4
  | .halt => 1
  | .word _ => 1
  | .label _ => 0

/-- The labels of a listing that starts at address `a`, each with "the address of the next cell" (R76). -/
def labelsFrom : Nat → List AsmLine → List (Nat × Nat)
  | _, [] => []
  | a, .label name :: t => (name, a) :: labelsFrom a t
  | a, l :: t => labelsFrom (a + l.size) t

/-- The address of a label that is defined once. -/
def findLabel (labels : List (Nat × Nat)) (name : Nat) : Option Nat :=
  match labels.filter (fun l => l.1 = name) with
  | [l] => some l.2
  | [] => none
  | _ :: _ :: _ => none

def resolveValue (labels : List (Nat × Nat)) : AsmValue → Option Int
  | .lit n => some n
  | .label name => (findLabel labels name).map fun a => (a : Int)

/-- The parameter of a read operand (R76). -/
def resolveRead (labels : List (Nat × Nat)) : AsmOperand → Option Param
  | .direct v => (resolveValue labels v).map fun n => ⟨.direct, n⟩
  | .immediate v => (resolveValue labels v).map fun n => ⟨.immediate, n⟩

/-- The parameter of a destination: one written `#n` does not assemble (R76). -/
def resolveDest (labels : List (Nat × Nat)) : AsmOperand → Option Param
  | .direct v => (resolveValue labels v).map fun n => ⟨.direct, n⟩
  | .immediate _ => none

def assembleF3 (labels : List (Nat × Nat)) (mk : Param → Param → Param → Instr) (a b d : AsmOperand) : Option (List Int) :=
  (resolveRead labels a).bind fun x => (resolveRead labels b).bind fun y =>
  (resolveDest labels d).map fun z => encode (mk x y z)

def assembleF2 (labels : List (Nat × Nat)) (mk : Param → Param → Instr) (a t : AsmOperand) : Option (List Int) :=
  (resolveRead labels a).bind fun x => (resolveRead labels t).map fun y => encode (mk x y)

/-- The cells of one line, in the canonical encoding of R75 (R76). -/
def assembleLine (labels : List (Nat × Nat)) : AsmLine → Option (List Int)
  | .add a b d => assembleF3 labels Instr.add a b d
  | .mul a b d => assembleF3 labels Instr.mul a b d
  | .store d => (resolveDest labels d).map fun z => encode (.store z)
  | .out a => (resolveRead labels a).map fun x => encode (.out x)
  | .jumpIfTrue a t => assembleF2 labels Instr.jumpIfTrue a t
  | .jumpIfFalse a t => assembleF2 labels Instr.jumpIfFalse a t
  | .lessThan a b d => assembleF3 labels Instr.lessThan a b d
  | .equals a b d => assembleF3 labels Instr.equals a b d
  | .halt => some (encode .halt)
  | .word n => some [n]
  | .label name => (findLabel labels name).map fun _ => []

def assembleLines (labels : List (Nat × Nat)) : List AsmLine → Option (List Int)
  | [] => some []
  | l :: t => (assembleLine labels l).bind fun cs => (assembleLines labels t).map fun rest => cs ++ rest

/-- The program of a listing, or nothing where it does not assemble (R76; log 11). -/
def assemble (lines : List AsmLine) : Option (List Int) := assembleLines (labelsFrom 0 lines) lines

end Sys2Proof.Machine
end

