-- ==== Sys2Proof/Machine/HostInterface.lean ====
section
/-! DEFINITION. The host's interactions (70_reset_and_hazards.md R180 to R189): CONSTRUCT, RUN's entry, OUTPUT, MEMORY and STATUS. The loop
that RUN then executes is Run.lean. -/

namespace Sys2Proof.Machine

/-! ## CONSTRUCT -/

/-- The reset state of a program under given parameters (R34, R180). -/
def State.constructed (c : Config) (p : List Int) : State where
  config       := c
  mem          := Memory.ofList p
  pc           := 0
  pendingInput := c.defaultInput
  lastOutput   := none
  status       := .ready
  error        := none
  lastOp       := none

/-- CONSTRUCT: the machine built from a program, of any length (R180); under `WORD_BITS = some N` the host must supply cells in
range (R189), and one that does not is refused (C6; DEDUCED, log 8). -/
def construct (c : Config) (p : List Int) : Except Refusal State :=
  if p.all (wordFits c) then .ok (State.constructed c p) else .error .programOutOfRange

/-! ## RUN -/

/-- A noun or verb overwrites its cell, when it is given (R183). -/
def writeRunCell (s : State) (a : Int) (v : Option Int) : Except ErrorRecord State :=
  match v with
  | none => .ok s
  | some x => memWrite s .runEntry none none a x

/-- An input replaces the pending input, when it is given (R183). -/
def State.withInput (s : State) (input : Option Int) : State :=
  match input with
  | none => s
  | some x => s.setPendingInput x

/-- The run entry's actions before the first step, in order: noun, verb, input, `STATUS <- Running`. A failing write raises with no
step taken, and a noun written before a failing verb stays written (R183, D17). -/
def enterRun (noun verb input : Option Int) (s : State) : State :=
  match writeRunCell s 1 noun with
  | .error e => raiseError e s
  | .ok s1 =>
    match writeRunCell s1 2 verb with
    | .error e => raiseError e s1
    | .ok s2 => (s2.withInput input).setStatus .running

/-- A given value is representable. -/
def optionFits (c : Config) (v : Option Int) : Bool := v.all (wordFits c)

/-- RUN's entry, accepted only in `Ready` (R182, R185). Noun and verb in range are the host's duty under `WORD_BITS = some N`
(R189; log 8); the input is not (C6). -/
def runEntry (noun verb input : Option Int) (s : State) : Host.Outcome State Fault Refusal :=
  match s.status with
  | .ready =>
    if !optionFits s.config noun then .refused .nounOutOfRange
    else if !optionFits s.config verb then .refused .verbOutOfRange
    else .next (enterRun noun verb input s)
  | .running => .refused (.runNotReady .running)
  | .halted => .refused (.runNotReady .halted)
  | .faulted => .refused (.runNotReady .faulted)

/-! ## Results -/

/-- OUTPUT: the last output if any `out` has executed, else `M[0]`; defined in `Halted` only; it changes nothing (R186). -/
def output (s : State) : Except Refusal Int :=
  match s.status with
  | .halted =>
    match s.lastOutput with
    | some v => .ok v
    | none =>
      match s.mem.read 0 with
      | some v => .ok v
      | none => .error .outputWithoutMemory
  | .ready => .error (.outputNotHalted .ready)
  | .running => .error (.outputNotHalted .running)
  | .faulted => .error (.outputNotHalted .faulted)

/-- MEMORY: every cell, in `Halted` only (R187, R188). -/
def readMemory (s : State) : Except Refusal (List Int) :=
  match s.status with
  | .halted => .ok s.mem.toList
  | .ready => .error (.memoryNotHalted .ready)
  | .running => .error (.memoryNotHalted .running)
  | .faulted => .error (.memoryNotHalted .faulted)

/-- STATUS: `STATUS` and `ERROR`, once the run has ended (R188). -/
def readStatus (s : State) : Except Refusal (Status × Option ErrorRecord) :=
  match s.status with
  | .halted => .ok (.halted, s.error)
  | .faulted => .ok (.faulted, s.error)
  | .ready => .error (.statusNotEnded .ready)
  | .running => .error (.statusNotEnded .running)

end Sys2Proof.Machine
end

