-- ==== Sys2Proof/Machine/Run.lean ====
section
/-! DEFINITION. The run: the loop of steps while `STATUS = Running` (40_execution_loop.md R89, 70_reset_and_hazards.md R184). It need not end, so the
function takes a host's step budget (R190) and answers nothing when the budget is used up: that run is still `Running` (DESIGN CHOICE, log 14). -/

namespace Sys2Proof.Machine

/-- `while STATUS == Running: Step()`, at most `budget` steps: the ended state, or nothing (R183, R184, R190). -/
def runLoop : Nat → State → Option State
  | 0, s => if s.status = .running then none else some s
  | budget + 1, s =>
    if s.status = .running then
      match step s with
      | .next s' => runLoop budget s'
      | .fault _ => none
      | .refused _ => none
    else some s

/-- The whole RUN interaction within a budget: the entry, then the loop (R183, R184). -/
def run (noun verb input : Option Int) (budget : Nat) (s : State) : Option State :=
  match runEntry noun verb input s with
  | .next s' => runLoop budget s'
  | .fault _ => none
  | .refused _ => none

end Sys2Proof.Machine
end

