-- ==== Sys2Proof/Safety.lean ====
section
/-! DEFINITION. The terms the statements use: when an operand can be read or written and how it raises when it cannot, what counts as a good state,
and what counts as the successful end of a run (40_execution_loop.md R90). -/

namespace Sys2Proof.Safety

open Sys2Proof.Machine

/-! ## Operands (R70, R71) -/

/-- The read operand `p` has the value `v`: its raw cell when immediate, the cell it names when direct (R70). -/
def Reads (s : State) (p : Param) (v : Int) : Prop :=
  (p.mode = .immediate ∧ p.raw = v) ∨ (p.mode = .direct ∧ s.mem.read p.raw = some v)

/-- Reading slot `slot` raises `e`: the mode first, then the address (R70, R42, R161). -/
def ReadTrap (s : State) (op : Opcode) (slot : Nat) (p : Param) (e : ErrorRecord) : Prop :=
  (∃ k, p.mode = .other k ∧ e = .unknownParameterMode s.pc op slot k) ∨
  (p.mode = .direct ∧ (p.raw < 0 ∨ (s.mem.len : Int) ≤ p.raw) ∧
    e = .addressOutOfBounds (.at s.pc) (some op) .read (some slot) p.raw)

/-- The destination `p` can be written: direct, and its address is one of memory (R71, R43). -/
def Writable (s : State) (p : Param) : Prop :=
  p.mode = .direct ∧ 0 ≤ p.raw ∧ p.raw < (s.mem.len : Int)

/-- Writing slot `slot` raises `e` (R71, R43, R161). -/
def WriteTrap (s : State) (op : Opcode) (slot : Nat) (p : Param) (e : ErrorRecord) : Prop :=
  (p.mode = .immediate ∧ e = .invalidWriteMode s.pc op slot p.raw) ∨
  (∃ k, p.mode = .other k ∧ e = .unknownParameterMode s.pc op slot k) ∨
  (p.mode = .direct ∧ (p.raw < 0 ∨ (s.mem.len : Int) ≤ p.raw) ∧
    e = .addressOutOfBounds (.at s.pc) (some op) .write (some slot) p.raw)

/-- `v` is representable: under `WORD_BITS = some N`, `-2^(N-1) <= v < 2^(N-1)`; under `none`, always (R174). -/
def InRange (c : Config) (v : Int) : Prop :=
  ∀ n, c.wordBits = some n → -(2 : Int) ^ (n - 1) ≤ v ∧ v < (2 : Int) ^ (n - 1)

/-- `v` is the value that `i` range-checks: the sum of add, the product of mul, the pending input of store; no other instruction checks one
(R100, R101, R110, R174). -/
def CheckedValue (i : Instr) (s : State) (v : Int) : Prop :=
  match i with
  | .add a b _ => ∃ x y, Reads s a x ∧ Reads s b y ∧ v = x + y
  | .mul a b _ => ∃ x y, Reads s a x ∧ Reads s b y ∧ v = x * y
  | .store _ => v = s.pendingInput
  | .out _ => False
  | .jumpIfTrue _ _ => False
  | .jumpIfFalse _ _ => False
  | .lessThan _ _ _ => False
  | .equals _ _ _ => False
  | .halt => False

/-- `s` with the error `e` raised (R160). -/
def faultedWith (s : State) (e : ErrorRecord) : State := { s with status := .faulted, error := some e }

/-- The self-test check of R170 passes: it is off, or there is no output other than 0. -/
def SelfTestPasses (s : State) : Prop := s.config.selfTest = true → ∀ v, s.lastOutput = some v → v = 0

/-! ## Encodings (R61, R66, R67) -/

/-- The mode in the decimal digit `k` of a word (R8, R61, R65). -/
def modeAt (w : Int) (k : Nat) : Mode := Mode.ofDigit (w / 10 ^ k % 10).toNat

/-- Every word `w >= 0` with `w mod 100 = n`, followed by its cells, is `mk` in format F3 (R61, R67). -/
def DecodesF3 (n : Int) (mk : Param → Param → Param → Instr) : Prop :=
  ∀ w r1 r2 r3 rest, 0 ≤ w → w % 100 = n →
    decode (w :: r1 :: r2 :: r3 :: rest) =
      .ok (mk ⟨modeAt w 2, r1⟩ ⟨modeAt w 3, r2⟩ ⟨modeAt w 4, r3⟩, rest)

/-- The same for format F2. -/
def DecodesF2 (n : Int) (mk : Param → Param → Instr) : Prop :=
  ∀ w r1 r2 rest, 0 ≤ w → w % 100 = n →
    decode (w :: r1 :: r2 :: rest) = .ok (mk ⟨modeAt w 2, r1⟩ ⟨modeAt w 3, r2⟩, rest)

/-- The same for formats F1R and F1W. -/
def DecodesF1 (n : Int) (mk : Param → Instr) : Prop :=
  ∀ w r1 rest, 0 ≤ w → w % 100 = n → decode (w :: r1 :: rest) = .ok (mk ⟨modeAt w 2, r1⟩, rest)

/-! ## The shapes of the instruction rules -/

/-- The pseudocode shared by add, mul, less-than and equals (R100, R101, R130, R131): read slot 1, read slot 2, compute `f`, check the range
where `checked`, write slot 3, advance by 4 and set `LAST_OP`. The first check that fails raises, with no other change. -/
def ThreeSlotRule (op : Opcode) (mk : Param → Param → Param → Instr) (f : Int → Int → Int) (checked : Bool) : Prop :=
  ∀ (s : State) (a b d : Param),
    (∀ x y, Reads s a x → Reads s b y → (checked = true → InRange s.config (f x y)) → Writable s d →
      exec (mk a b d) s =
        .next { s with mem := s.mem.put d.raw (f x y), pc := s.pc + 4, lastOp := some op }) ∧
    (∀ e, ReadTrap s op 1 a e → exec (mk a b d) s = .next (faultedWith s e)) ∧
    (∀ x e, Reads s a x → ReadTrap s op 2 b e → exec (mk a b d) s = .next (faultedWith s e)) ∧
    (∀ x y, Reads s a x → Reads s b y → checked = true → ¬ InRange s.config (f x y) →
      exec (mk a b d) s = .next (faultedWith s (.wordOverflow s.pc op (f x y)))) ∧
    (∀ x y e, Reads s a x → Reads s b y → (checked = true → InRange s.config (f x y)) → WriteTrap s op 3 d e →
      exec (mk a b d) s = .next (faultedWith s e))

/-- The pseudocode shared by the two jumps (R120, R121), `taken` being the test of the condition: slot 2 is resolved only when the jump is taken, and a
target equal to the jump's own address counts as no alteration of `pc` (R86). -/
def JumpRule (op : Opcode) (mk : Param → Param → Instr) (taken : Int → Prop) : Prop :=
  ∀ (s : State) (a t : Param),
    (∀ x y, Reads s a x → taken x → Reads s t y → y ≠ s.pc →
      exec (mk a t) s = .next { s with pc := y, lastOp := some op }) ∧
    (∀ x, Reads s a x → taken x → Reads s t s.pc →
      exec (mk a t) s = .next { s with pc := s.pc + 3, lastOp := some op }) ∧
    (∀ x, Reads s a x → ¬ taken x →
      exec (mk a t) s = .next { s with pc := s.pc + 3, lastOp := some op }) ∧
    (∀ e, ReadTrap s op 1 a e → exec (mk a t) s = .next (faultedWith s e)) ∧
    (∀ x e, Reads s a x → taken x → ReadTrap s op 2 t e → exec (mk a t) s = .next (faultedWith s e))

/-- What every instruction leaves alone when it ends in `t`: the parameters, the pending input and `MEM_LEN`; and either it completed, and
`STATUS` and `ERROR` are as before and `LAST_OP` is its opcode, or it raised, and everything but those two is as before (R87, R160). -/
def CommonFrame (op : Opcode) (s t : State) : Prop :=
  t.config = s.config ∧ t.pendingInput = s.pendingInput ∧ t.mem.len = s.mem.len ∧
  ((t.status = s.status ∧ t.error = s.error ∧ t.lastOp = some op) ∨
   ∃ e, t = { s with status := .faulted, error := some e })

/-- The frame of an instruction that stores to the destination `d`: the one cell stored to is the one its raw value names. -/
def StoringFrame (op : Opcode) (i : Instr) (d : Param) : Prop :=
  ∀ s t : State, exec i s = .next t →
    CommonFrame op s t ∧ t.lastOutput = s.lastOutput ∧
    ∀ a, a ≠ d.raw → t.mem.read a = s.mem.read a

/-- The frame of an instruction that stores nothing; `LAST_OUTPUT` too is unchanged but for `out`. -/
def NonStoringFrame (op : Opcode) (i : Instr) : Prop :=
  ∀ s t : State, exec i s = .next t →
    CommonFrame op s t ∧ (op ≠ .out → t.lastOutput = s.lastOutput) ∧
    ∀ a, t.mem.read a = s.mem.read a

/-! ## Steps -/

/-- The cells `cells` stand in memory from address `a` on. -/
def CellsAt (m : Memory) (a : Int) (cells : List Int) : Prop :=
  ∀ (k : Nat) (h : k < cells.length), m.read (a + (k : Int)) = some cells[k]

/-- The instruction at `pc`: the cells there decode to `i`. -/
def InstrAt (s : State) (i : Instr) : Prop :=
  ∃ cells rest, CellsAt s.mem s.pc cells ∧ decode cells = .ok (i, rest)

/-- A step of a running machine from `s` to `t`. -/
def Steps (s t : State) : Prop := s.status = .running ∧ step s = .next t

/-- `t` is reached from `s` by finitely many steps. -/
inductive Reaches : State → State → Prop where
  | refl (s : State) : Reaches s s
  | tail {s t u : State} (before : Reaches s t) (last : Steps t u) : Reaches s u

/-- A halted run, "the only successful end" (R90). -/
def HaltedRun (s t : State) : Prop := Reaches s t ∧ t.status = .halted

/-! ## Good states -/

/-- The word at `pc` is a halt word (R140). -/
def HaltWordAt (s : State) : Prop := ∃ w, s.mem.read s.pc = some w ∧ 0 ≤ w ∧ w % 100 = 99

/-- What holds of every state that construction, the run entry and steps lead to. -/
structure Inv (s : State) : Prop where
  /-- Memory is in its canonical form. -/
  memory : s.mem.wf = true
  /-- `ERROR` is `none` in every status but `Faulted`, and set in `Faulted` (R27). -/
  error : s.error = none ↔ s.status ≠ .faulted
  /-- A halted machine's `pc` holds the address of the halt word (R90, R140). -/
  halted : s.status = .halted → HaltWordAt s
  /-- `LAST_OP` is an opcode other than halt's (R28). -/
  lastOp : s.lastOp ≠ some .halt
  /-- An output has been made by a completed instruction (R25, R28). -/
  output : s.lastOp = none → s.lastOutput = none
  /-- Under `SELF_TEST`, the last instruction completed after a non-zero output is that `out` (R170). -/
  selfTest : s.config.selfTest = true → ∀ v, s.lastOutput = some v → v ≠ 0 → s.lastOp = some .out

/-- Every memory cell and the last output are representable (R174, R189). `pc` is not asked to be: it has no width limit (R23). -/
def WordsInRange (s : State) : Prop :=
  (∀ a v, s.mem.read a = some v → InRange s.config v) ∧ ∀ v, s.lastOutput = some v → InRange s.config v

/-- The next state changed by `f`; a fault or refusal as it is. -/
def mapNext (f : State → State) : Host.Outcome State Fault Refusal → Host.Outcome State Fault Refusal
  | .next s => .next (f s)
  | .fault r => .fault r
  | .refused r => .refused r

end Sys2Proof.Safety
end

