-- ==== Sys2Proof/Certificates/Slice0/Obligations.lean ====
section
/-! DEFINITION. The statements for the provers. Each docstring names the rules it formalises; what rests on a choice of the model's own says so and
names the log entry. -/

open Sys2Proof Sys2Proof.Machine Sys2Proof.Safety

/-! ## Encoding -/

/-- R60, R61, R66, R75: decoding the encoded cells of a well-formed instruction gives it back, with every raw value and mode digit, and the cells after it. -/
def Obligations.DecodeReturnsTheEncodedInstruction : Prop :=
  ∀ (i : Instr) (rest : List Int), i.wf = true → decode (encode i ++ rest) = .ok (i, rest)

/-- R61, R62, R69, R75: cells that decode are the canonical encoding of what they decode to, but for the digits above the declared slots. -/
def Obligations.DecodedCellsAreTheEncodingUpToIgnoredDigits : Prop :=
  ∀ (w : Int) (cells rest : List Int) (i : Instr), decode (w :: cells) = .ok (i, rest) →
    i.wf = true ∧ 0 ≤ w ∧ (w % 10 ^ (i.params.length + 2)) :: cells = encode i ++ rest

/-- R62, R69: digits above the declared slots change nothing. -/
def Obligations.DigitsAboveTheSlotsAreIgnored : Prop :=
  ∀ (w k : Int) (cells rest : List Int) (i : Instr), 0 ≤ k → decode (w :: cells) = .ok (i, rest) →
    decode ((w + k * 10 ^ (i.params.length + 2)) :: cells) = .ok (i, rest)

/-- R63, R66, R69, R74: a negative word and a word whose low two digits are not in the table are rejected by name, whatever follows; every other
word with three cells after it is an instruction. -/
def Obligations.EveryWordHasOneDecodeOutcome : Prop :=
  ∀ (w : Int) (cells : List Int),
    (w < 0 → decode (w :: cells) = .error (.negativeWord w)) ∧
    (0 ≤ w → ¬ (1 ≤ w % 100 ∧ w % 100 ≤ 8 ∨ w % 100 = 99) →
      decode (w :: cells) = .error (.unknownOpcode (w % 100).toNat w)) ∧
    (0 ≤ w → (1 ≤ w % 100 ∧ w % 100 ≤ 8 ∨ w % 100 = 99) → 3 ≤ cells.length →
      ∃ i rest, decode (w :: cells) = .ok (i, rest) ∧ (i.opcode.number : Int) = w % 100)

/-- R73 and the canonical words of R100, R110, R111, R120, R130, R140, R62, written out from the rules. -/
def Obligations.WordsOfTheRulesDecode : Prop :=
  decode [1002, 4, 3, 4] = .ok (.mul ⟨.direct, 4⟩ ⟨.immediate, 3⟩ ⟨.direct, 4⟩, []) ∧
  decode [3, 9] = .ok (.store ⟨.direct, 9⟩, []) ∧
  decode [104, -5] = .ok (.out ⟨.immediate, -5⟩, []) ∧
  decode [1105, 1, 4] = .ok (.jumpIfTrue ⟨.immediate, 1⟩ ⟨.immediate, 4⟩, []) ∧
  decode [1107, -3, 2, 9] = .ok (.lessThan ⟨.immediate, -3⟩ ⟨.immediate, 2⟩ ⟨.direct, 9⟩, []) ∧
  decode [100001, 0, 0, 0] = .ok (.add ⟨.direct, 0⟩ ⟨.direct, 0⟩ ⟨.direct, 0⟩, []) ∧
  decode [10099] = .ok (.halt, [])

/-! ## The step -/

/-- R80, R85: when the cells at `pc` decode to `i`, a step of a running machine is `exec` of `i`, but for the self-test check that comes before
every instruction other than halt (R170). `exec` includes the advance of R86 and R87. -/
def Obligations.StepRunsTheDecodedInstruction : Prop :=
  ∀ (s : State) (i : Instr), s.status = .running → InstrAt s i → (i = .halt ∨ SelfTestPasses s) →
    step s = exec i s

/-- R81: a fetch with `pc` outside memory raises AddressOutOfBounds, whatever else holds, and reads nothing. -/
def Obligations.FetchOutsideMemoryRaises : Prop :=
  ∀ s : State, s.status = .running → (s.pc < 0 ∨ (s.mem.len : Int) ≤ s.pc) →
    step s = .next (faultedWith s (.addressOutOfBounds (.at s.pc) none .fetch none s.pc))

/-- R63, R82: a negative instruction word raises UnknownOpcode, whatever its low digits. -/
def Obligations.NegativeWordRaisesUnknownOpcode : Prop :=
  ∀ (s : State) (w : Int), s.status = .running → s.mem.read s.pc = some w → w < 0 →
    step s = .next (faultedWith s (.unknownOpcode s.pc none w))

/-- R83: the halt test comes first, then the self-test check, then the lookup: an opcode outside the table raises, and one in the table is executed
when its cells are there. -/
def Obligations.DispatchTestsHaltThenSelfTestThenOpcode : Prop :=
  ∀ (s : State) (w : Int), s.status = .running → s.mem.read s.pc = some w → 0 ≤ w →
    (w % 100 = 99 → step s = .next { s with status := .halted }) ∧
    (w % 100 ≠ 99 → s.config.selfTest = true → ∀ v, s.lastOutput = some v → v ≠ 0 →
      step s = .next (faultedWith s (.selfTestFailure s.pc s.lastOp v))) ∧
    (w % 100 ≠ 99 → ¬ (1 ≤ w % 100 ∧ w % 100 ≤ 8) → SelfTestPasses s →
      step s = .next (faultedWith s (.unknownOpcode s.pc (some (w % 100).toNat) w))) ∧
    (1 ≤ w % 100 → w % 100 ≤ 8 → SelfTestPasses s → s.pc + 3 < (s.mem.len : Int) →
      ∃ i, InstrAt s i ∧ (i.opcode.number : Int) = w % 100 ∧ step s = exec i s)

/-- R84: the lowest parameter cell at the end of memory raises AddressOutOfBounds for its slot, before any operand is resolved. -/
def Obligations.MissingParameterCellRaises : Prop :=
  ∀ (s : State) (w : Int) (op : Opcode) (k : Nat), s.status = .running → SelfTestPasses s →
    s.mem.read s.pc = some w → 0 ≤ w → w % 100 = (op.number : Int) →
    1 ≤ k → k ≤ op.paramCount → s.pc + (k : Int) = (s.mem.len : Int) →
    step s = .next (faultedWith s (.addressOutOfBounds (.at s.pc) (some op) .fetch (some k) (s.pc + (k : Int))))

/-! ## The instructions -/

/-- R100: `add`, its encoding, its effect and every error it raises in order. -/
def Obligations.AddWritesTheExactSum : Prop :=
  DecodesF3 1 Instr.add ∧ ThreeSlotRule .add Instr.add (fun x y => x + y) true

/-- R101: `mul`, likewise. -/
def Obligations.MulWritesTheExactProduct : Prop :=
  DecodesF3 2 Instr.mul ∧ ThreeSlotRule .mul Instr.mul (fun x y => x * y) true

/-- R110: `store`, likewise; the pending input is not consumed: every `store` of a run reads the same value. -/
def Obligations.StoreWritesThePendingInput : Prop :=
  DecodesF1 3 Instr.store ∧ (∀ s t : State, Reaches s t → t.pendingInput = s.pendingInput) ∧
  ∀ (s : State) (d : Param),
    (InRange s.config s.pendingInput → Writable s d →
      exec (.store d) s =
        .next { s with mem := s.mem.put d.raw s.pendingInput, pc := s.pc + 2, lastOp := some .store }) ∧
    (¬ InRange s.config s.pendingInput →
      exec (.store d) s = .next (faultedWith s (.wordOverflow s.pc .store s.pendingInput))) ∧
    (∀ e, InRange s.config s.pendingInput → WriteTrap s .store 1 d e →
      exec (.store d) s = .next (faultedWith s e))

/-- R111: `out`, likewise. -/
def Obligations.OutReplacesTheLastOutput : Prop :=
  DecodesF1 4 Instr.out ∧
  ∀ (s : State) (a : Param),
    (∀ v, Reads s a v →
      exec (.out a) s = .next { s with lastOutput := some v, pc := s.pc + 2, lastOp := some .out }) ∧
    (∀ e, ReadTrap s .out 1 a e → exec (.out a) s = .next (faultedWith s e))

/-- R120: `jump-if-true`, likewise; slot 2 is resolved only when the jump is taken. -/
def Obligations.JumpIfTrueJumpsOnNonZero : Prop :=
  DecodesF2 5 Instr.jumpIfTrue ∧ JumpRule .jumpIfTrue Instr.jumpIfTrue (fun x => x ≠ 0)

/-- R121: `jump-if-false`, likewise. -/
def Obligations.JumpIfFalseJumpsOnZero : Prop :=
  DecodesF2 6 Instr.jumpIfFalse ∧ JumpRule .jumpIfFalse Instr.jumpIfFalse (fun x => x = 0)

/-- R130: `less-than`, likewise, on signed integers. -/
def Obligations.LessThanWritesOneOrZero : Prop :=
  DecodesF3 7 Instr.lessThan ∧ ThreeSlotRule .lessThan Instr.lessThan (fun x y => if x < y then 1 else 0) false

/-- R131: `equals`, likewise. -/
def Obligations.EqualsWritesOneOrZero : Prop :=
  DecodesF3 8 Instr.equals ∧ ThreeSlotRule .equals Instr.equals (fun x y => if x = y then 1 else 0) false

/-- R140: any word `w >= 0` with `w mod 100 = 99` is halt; it sets `STATUS` and nothing else, even in the last cell and whatever the self-test would say;
no step follows. -/
def Obligations.HaltOnlySetsStatus : Prop :=
  (∀ (w : Int) (rest : List Int), 0 ≤ w → w % 100 = 99 → decode (w :: rest) = .ok (.halt, rest)) ∧
  (∀ s : State, exec .halt s = .next { s with status := .halted }) ∧
  (∀ s : State, s.status = .running → HaltWordAt s → step s = .next { s with status := .halted }) ∧
  (∀ s t : State, s.status = .halted → step s ≠ .next t)

/-! ## Frames -/

/-- R87, R100, R101, R110, R130, R131: what add, mul, store, less-than and equals leave unchanged; the one cell they can change is the one the
destination's raw value names. -/
def Obligations.StoringInstructionsChangeOnlyTheirDestination : Prop :=
  ∀ a b d : Param,
    StoringFrame .add (.add a b d) d ∧ StoringFrame .mul (.mul a b d) d ∧
    StoringFrame .lessThan (.lessThan a b d) d ∧ StoringFrame .equals (.equals a b d) d ∧
    StoringFrame .store (.store d) d

/-- R87, R111, R120, R121, R140: what out, the jumps and halt leave unchanged: all of memory, and `LAST_OUTPUT` but for out. -/
def Obligations.OtherInstructionsChangeNoMemory : Prop :=
  ∀ a t : Param,
    NonStoringFrame .out (.out a) ∧ NonStoringFrame .jumpIfTrue (.jumpIfTrue a t) ∧
    NonStoringFrame .jumpIfFalse (.jumpIfFalse a t) ∧
    ∀ s u : State, exec .halt s = .next u →
      u.config = s.config ∧ u.mem.len = s.mem.len ∧ (∀ x, u.mem.read x = s.mem.read x) ∧ u.pc = s.pc ∧
      u.pendingInput = s.pendingInput ∧ u.lastOutput = s.lastOutput ∧ u.error = s.error ∧ u.lastOp = s.lastOp

/-! ## Rules of the whole machine -/

/-- R80, R89, R194: every running state has a next state, and no other state has one. -/
def Obligations.ExactlyTheRunningStatesStep : Prop :=
  ∀ s : State, s.status = .running ↔ ∃ t, step s = .next t

/-- R152, R160: an error leaves the state at the start of the step, plus `STATUS` and `ERROR`. -/
def Obligations.ErrorsArePrecise : Prop :=
  ∀ s t : State, Steps s t → t.status = .faulted →
    ∃ e, t = { s with status := .faulted, error := some e }

/-- R151, R161: what each error record says of the step that raised it, its opcode and value being those of the word or instruction at `pc`. -/
def Obligations.ErrorRecordsTellTheirCause : Prop :=
  ∀ (s t : State) (e : ErrorRecord), Steps s t → t.status = .faulted → t.error = some e →
    match e with
    | .unknownOpcode pc op w =>
      pc = s.pc ∧ s.mem.read s.pc = some w ∧
        ((w < 0 ∧ op = none) ∨
         (0 ≤ w ∧ op = some (w % 100).toNat ∧ w % 100 ≠ 99 ∧ ¬ (1 ≤ w % 100 ∧ w % 100 ≤ 8)))
    | .invalidWriteMode pc op slot raw =>
      pc = s.pc ∧ ∃ i, InstrAt s i ∧ i.opcode = op ∧ i.destination = some ⟨.immediate, raw⟩ ∧ slot = op.paramCount
    | .addressOutOfBounds pc op access slot a =>
      pc = .at s.pc ∧ (a < 0 ∨ (s.mem.len : Int) ≤ a) ∧
        ((access = .fetch ∧ op = none ∧ slot = none ∧ a = s.pc) ∨
         (access = .fetch ∧ ∃ w o k, s.mem.read s.pc = some w ∧ 0 ≤ w ∧ w % 100 = (o.number : Int) ∧ op = some o ∧ slot = some k ∧
           1 ≤ k ∧ k ≤ o.paramCount ∧ a = s.pc + (k : Int)) ∨
         (access = .read ∧ ∃ i k, InstrAt s i ∧ op = some i.opcode ∧ slot = some (k + 1) ∧
           i.params[k]? = some ⟨.direct, a⟩) ∨
         (access = .write ∧ ∃ i, InstrAt s i ∧ op = some i.opcode ∧ slot = some i.opcode.paramCount ∧
           i.destination = some ⟨.direct, a⟩))
    | .unknownParameterMode pc op slot m =>
      pc = s.pc ∧ 2 ≤ m ∧ m ≤ 9 ∧ ∃ i k r, InstrAt s i ∧ i.opcode = op ∧ slot = k + 1 ∧ i.params[k]? = some ⟨.other m, r⟩
    | .selfTestFailure pc lastOp v =>
      s.config.selfTest = true ∧ pc = s.pc ∧ lastOp = s.lastOp ∧ s.lastOutput = some v ∧ v ≠ 0 ∧ ¬ HaltWordAt s
    | .wordOverflow pc op v =>
      pc = s.pc ∧ ¬ InRange s.config v ∧ ∃ i, InstrAt s i ∧ i.opcode = op ∧ CheckedValue i s v

/-- R141: a step ends the run as halted exactly at a halt word, and otherwise the run goes on or ends by one of the six errors of R151. -/
def Obligations.RunsEndOnlyByHaltOrError : Prop :=
  ∀ s t : State, Steps s t →
    (t.status = .halted ↔ HaltWordAt s) ∧
    (t.status ≠ .halted → t.status = .running ∨
      (t.status = .faulted ∧ ∃ e, t.error = some e ∧
        (e.code, e.name) ∈ [(1, "UnknownOpcode"), (2, "InvalidWriteMode"), (3, "AddressOutOfBounds"), (4, "UnknownParameterMode"),
          (5, "SelfTestFailure"), (6, "WordOverflow")]))

/-- R91: the effect of each opcode on `pc` in a step that raises no error. -/
def Obligations.PcAfterACompletedStep : Prop :=
  ∀ (s t : State) (i : Instr), Steps s t → InstrAt s i → t.status ≠ .faulted →
    match i with
    | .add _ _ _ => t.pc = s.pc + 4
    | .mul _ _ _ => t.pc = s.pc + 4
    | .lessThan _ _ _ => t.pc = s.pc + 4
    | .equals _ _ _ => t.pc = s.pc + 4
    | .store _ => t.pc = s.pc + 2
    | .out _ => t.pc = s.pc + 2
    | .jumpIfTrue a b =>
      ∃ x, Reads s a x ∧ (x = 0 → t.pc = s.pc + 3) ∧
        (x ≠ 0 → ∃ y, Reads s b y ∧ t.pc = if y = s.pc then s.pc + 3 else y)
    | .jumpIfFalse a b =>
      ∃ x, Reads s a x ∧ (x ≠ 0 → t.pc = s.pc + 3) ∧
        (x = 0 → ∃ y, Reads s b y ∧ t.pc = if y = s.pc then s.pc + 3 else y)
    | .halt => t.pc = s.pc ∧ t.status = .halted

/-- R22, R24, R33: no step changes the parameters, `MEM_LEN` or the pending input. -/
def Obligations.StepsKeepParametersLengthAndInput : Prop :=
  ∀ s t : State, Steps s t →
    t.config = s.config ∧ t.mem.len = s.mem.len ∧ t.pendingInput = s.pendingInput

/-- R25, R111: a step changes `LAST_OUTPUT` only by an `out`, to the value of its operand; nothing sets it back to unset. -/
def Obligations.OnlyOutChangesTheLastOutput : Prop :=
  ∀ s t : State, Steps s t → t.lastOutput ≠ s.lastOutput →
    ∃ a v, InstrAt s (.out a) ∧ Reads s a v ∧ t.lastOutput = some v

/-- R28, R87, R140, R160: a completed instruction other than halt records its opcode; halt and errors leave `LAST_OP` as it was. -/
def Obligations.LastOpIsTheLastCompletedOpcode : Prop :=
  ∀ s t : State, Steps s t →
    (t.status = .running → ∃ i, InstrAt s i ∧ i ≠ .halt ∧ t.lastOp = some i.opcode) ∧
    (t.status ≠ .running → t.lastOp = s.lastOp)

/-- R87: a step changes no cell but the one the destination of its instruction names, and none where it has no destination. -/
def Obligations.AStepChangesAtMostTheDestinationCell : Prop :=
  ∀ (s t : State) (a : Int), Steps s t → t.mem.read a ≠ s.mem.read a →
    ∃ i d, InstrAt s i ∧ i.destination = some d ∧ d.mode = .direct ∧ d.raw = a ∧ t.status = .running

/-- R26, R80, R140, R163: what a step answers outside Running; that it is these refusals and this fault is the model's choice (log 6). -/
def Obligations.NoStepOutsideRunning : Prop :=
  ∀ s : State,
    (s.status = .ready → step s = .refused .notStarted) ∧
    (s.status = .halted → step s = .refused .alreadyHalted) ∧
    (s.status = .faulted → step s = .fault (.runFaulted s.error))

/-! ## Diagnostics and finite width -/

/-- R170: the self-test check fires at a non-halt step after a non-zero output, never when it is off; in a state that meets the invariant it names
`out` as the last opcode. -/
def Obligations.SelfTestFiresAfterANonZeroOutput : Prop :=
  (∀ (s : State) (w : Int) (v : Int), s.status = .running → s.config.selfTest = true →
    s.mem.read s.pc = some w → 0 ≤ w → w % 100 ≠ 99 → s.lastOutput = some v → v ≠ 0 →
    step s = .next (faultedWith s (.selfTestFailure s.pc s.lastOp v))) ∧
  (∀ (s t : State) (pc : Int) (lastOp : Option Opcode) (v : Int), Inv s → Steps s t →
    t.error = some (.selfTestFailure pc lastOp v) →
    s.config.selfTest = true ∧ pc = s.pc ∧ lastOp = some .out ∧ s.lastOutput = some v ∧ v ≠ 0)

/-- R174: with `WORD_BITS = some N`, add, mul and store raise WordOverflow for a value outside `[-2^(N-1), 2^(N-1))` and write nothing; with `none`
no step raises it. -/
def Obligations.WordOverflowIsRaisedAndNeverWrapped : Prop :=
  (∀ (s : State) (n : Nat) (a b d : Param) (x y : Int), s.config.wordBits = some n → Reads s a x → Reads s b y →
    (x + y < -(2 : Int) ^ (n - 1) ∨ (2 : Int) ^ (n - 1) ≤ x + y →
      exec (.add a b d) s = .next (faultedWith s (.wordOverflow s.pc .add (x + y)))) ∧
    (x * y < -(2 : Int) ^ (n - 1) ∨ (2 : Int) ^ (n - 1) ≤ x * y →
      exec (.mul a b d) s = .next (faultedWith s (.wordOverflow s.pc .mul (x * y)))) ∧
    (s.pendingInput < -(2 : Int) ^ (n - 1) ∨ (2 : Int) ^ (n - 1) ≤ s.pendingInput →
      exec (.store d) s = .next (faultedWith s (.wordOverflow s.pc .store s.pendingInput)))) ∧
  (∀ (s t : State) (pc : Int) (op : Opcode) (v : Int), s.config.wordBits = none → Steps s t →
    t.error = some (.wordOverflow pc op v) → s.error = some (.wordOverflow pc op v))

/-! ## Invariants -/

/-- R27, R28, R90, R140, R170 and the memory's canonical form (the model's choice, log 1): every step keeps the invariant. -/
def Obligations.EveryStepKeepsTheInvariant : Prop :=
  ∀ s t : State, Inv s → step s = .next t → Inv t

/-- The reset state (the construction from the empty program, log 3) meets the invariant. -/
def Obligations.ResetMeetsTheInvariant : Prop :=
  construct Config.default [] = .ok State.reset ∧ Inv State.reset

/-- R180, R183: a constructed machine meets the invariant, and the run entry keeps it. -/
def Obligations.ConstructionAndEntryMeetTheInvariant : Prop :=
  (∀ (c : Config) (p : List Int) (s : State), construct c p = .ok s → Inv s) ∧
  (∀ (noun verb input : Option Int) (s t : State), Inv s → runEntry noun verb input s = .next t → Inv t)

/-- R174, R189: under a width of at least two bits, every step keeps every cell and the last output in range; at one bit a comparison's 1 is itself out
of range (log 9). `pc` has no width limit (R23) and may leave the range. -/
def Obligations.EveryStepKeepsWordsInRange : Prop :=
  ∀ s t : State, s.config.wordBits ≠ some 0 → s.config.wordBits ≠ some 1 →
    WordsInRange s → step s = .next t → WordsInRange t

/-! ## Memory -/

/-- R43: a write outside memory raises and changes nothing; a write inside changes that cell and no other, and `MEM_LEN` stays. -/
def Obligations.MemoryWritesChangeOneCell : Prop :=
  ∀ (s : State) (pc : ErrorPc) (op : Option Opcode) (slot : Option Nat) (a : Int) (v : Int),
    ((a < 0 ∨ (s.mem.len : Int) ≤ a) →
      memWrite s pc op slot a v = .error (.addressOutOfBounds pc op .write slot a)) ∧
    (0 ≤ a → a < (s.mem.len : Int) →
      memWrite s pc op slot a v = .ok { s with mem := s.mem.put a v } ∧ (s.mem.put a v).len = s.mem.len ∧
        (s.mem.put a v).read a = some v ∧ ∀ b, b ≠ a → (s.mem.put a v).read b = s.mem.read b)

/-- R42: a read outside memory raises; a read inside gives the value of that cell. -/
def Obligations.MemoryReadsAreBounded : Prop :=
  ∀ (s : State) (op : Opcode) (slot : Nat) (a : Int),
    ((a < 0 ∨ (s.mem.len : Int) ≤ a) →
      memRead s op slot a = .error (.addressOutOfBounds (.at s.pc) (some op) .read (some slot) a)) ∧
    (0 ≤ a → ∀ h : a.toNat < s.mem.toList.length, memRead s op slot a = .ok s.mem.toList[a.toNat])

/-- R21, and the canonical form of the model (log 1): two memories in canonical form that hold the same cells are equal. -/
def Obligations.CanonicalMemoriesWithEqualCellsAreEqual : Prop :=
  ∀ m n : Memory, m.wf = true → n.wf = true → m.len = n.len → (∀ a, m.read a = n.read a) → m = n

/-! ## The host's interactions -/

/-- R34: construction from a program gives every element its reset value; `DEFAULT_INPUT` is 1 by default. -/
def Obligations.ConstructionGivesTheResetValues : Prop :=
  Config.default.defaultInput = 1 ∧
  ∀ (c : Config) (p : List Int), (∀ v, v ∈ p → InRange c v) →
    ∃ s, construct c p = .ok s ∧ s.config = c ∧ s.mem.len = p.length ∧
      (∀ (k : Nat) (h : k < p.length), s.mem.read (k : Int) = some p[k]) ∧ s.mem.toList = p ∧
      s.pc = 0 ∧ s.pendingInput = c.defaultInput ∧ s.lastOutput = none ∧ s.status = .ready ∧
      s.error = none ∧ s.lastOp = none

/-- R183: the run entry's actions, in order. Noun and verb in range are the host's duty (R189). -/
def Obligations.RunEntryWritesNounVerbAndInput : Prop :=
  ∀ (noun verb input : Option Int) (s : State), s.status = .ready →
    (∀ v, noun = some v → InRange s.config v) → (∀ v, verb = some v → InRange s.config v) →
    ((noun ≠ none → 1 < s.mem.len) → (verb ≠ none → 2 < s.mem.len) →
      ∃ t, runEntry noun verb input s = .next t ∧ t.status = .running ∧
        t.pendingInput = input.getD s.pendingInput ∧
        t.mem.len = s.mem.len ∧
        (∀ a, t.mem.read a =
          if a = 1 ∧ noun ≠ none then noun else if a = 2 ∧ verb ≠ none then verb else s.mem.read a) ∧
        t.pc = s.pc ∧ t.config = s.config ∧ t.lastOutput = s.lastOutput ∧ t.error = s.error ∧ t.lastOp = s.lastOp) ∧
    (noun ≠ none → s.mem.len ≤ 1 →
      runEntry noun verb input s =
        .next (faultedWith s (.addressOutOfBounds .runEntry none .write none 1))) ∧
    ((noun ≠ none → 1 < s.mem.len) → verb ≠ none → s.mem.len ≤ 2 →
      ∃ m, runEntry noun verb input s =
          .next (faultedWith { s with mem := m } (.addressOutOfBounds .runEntry none .write none 2)) ∧
        m.len = s.mem.len ∧ ∀ a, m.read a = if a = 1 ∧ noun ≠ none then noun else s.mem.read a)

/-- R182, R185: a run entry outside Ready is refused. -/
def Obligations.AMachineRunsOnce : Prop :=
  ∀ (noun verb input : Option Int) (s : State), s.status ≠ .ready →
    runEntry noun verb input s = .refused (.runNotReady s.status)

/-- R186: the output accessor in a halted machine, its refusal in any other, and that a machine halted by a run has a value to return. -/
def Obligations.OutputFallsBackToCellZero : Prop :=
  ∀ s : State,
    (s.status = .halted → ∀ v, s.lastOutput = some v → output s = .ok v) ∧
    (s.status = .halted → s.lastOutput = none → ∀ v, s.mem.read 0 = some v → output s = .ok v) ∧
    (s.status ≠ .halted → output s = .error (.outputNotHalted s.status)) ∧
    (Inv s → s.status = .halted → ∃ v, output s = .ok v)

/-- R187, R188: the memory result in Halted, the status result in Halted and Faulted, and what is refused elsewhere, the output accessor included. -/
def Obligations.ResultsAreReadAfterTheRun : Prop :=
  ∀ s : State,
    (s.status = .halted → ∃ cells, readMemory s = .ok cells ∧ cells.length = s.mem.len ∧
      ∀ (k : Nat) (h : k < cells.length), s.mem.read (k : Int) = some cells[k]) ∧
    (s.status ≠ .halted → readMemory s = .error (.memoryNotHalted s.status)) ∧
    (s.status ≠ .halted → output s = .error (.outputNotHalted s.status)) ∧
    (s.status = .halted ∨ s.status = .faulted → readStatus s = .ok (s.status, s.error)) ∧
    (s.status = .ready ∨ s.status = .running → readStatus s = .error (.statusNotEnded s.status))

/-! ## Runs -/

/-- R184, R190: what the loop returns is an ended state that the steps reach, and a larger budget returns the same. -/
def Obligations.RunResultDoesNotDependOnTheBudget : Prop :=
  ∀ (k : Nat) (s t : State), runLoop k s = some t →
    t.status ≠ .running ∧ Reaches s t ∧ ∀ j, k ≤ j → runLoop j s = some t

/-- R89, R190: a budget that is used up leaves the machine Running after that many steps; it has not halted. -/
def Obligations.AnExhaustedBudgetIsNoHalt : Prop :=
  ∀ (k : Nat) (s : State), runLoop k s = none →
    ∃ t, Host.Core.run Sys2Proof.core k s = .next t ∧ t.status = .running ∧ Reaches s t

/-- R89, R90: a run has at most one end, and every ended run is found by the loop within some budget. -/
def Obligations.ARunHasOneEnd : Prop :=
  ∀ s t u : State, Reaches s t → t.status ≠ .running → Reaches s u → u.status ≠ .running →
    t = u ∧ ∃ k, runLoop k s = some t

/-- R54: an `add` that writes a halt word over the next instruction's first cell makes the next step halt. -/
def Obligations.ASelfModifyingWriteIsFetched : Prop :=
  ∀ (s : State) (a b d : Param) (x y : Int), s.status = .running → SelfTestPasses s → InstrAt s (.add a b d) →
    Reads s a x → Reads s b y → InRange s.config (x + y) → Writable s d → d.raw = s.pc + 4 →
    0 ≤ x + y → (x + y) % 100 = 99 →
    ∃ t, step s = .next t ∧ t.mem.read (s.pc + 4) = some (x + y) ∧ step t = .next { t with status := .halted }

/-- R181: the empty program is accepted and its run faults at the first fetch, whatever the parameters and the input. -/
def Obligations.TheEmptyProgramFaultsAtTheFirstFetch : Prop :=
  ∀ (c : Config) (input : Option Int) (budget : Nat),
    ∃ s t, construct c [] = .ok s ∧ run none none input (budget + 1) s = some t ∧ t.status = .faulted ∧ t.pc = 0 ∧
      t.error = some (.addressOutOfBounds (.at 0) none .fetch none 0)

/-! ## What instructions cannot learn -/

/-- R24: `PENDING_INPUT` is read by `store` and by no other instruction. -/
def Obligations.OnlyStoreReadsThePendingInput : Prop :=
  ∀ (i : Instr) (s : State) (v : Int), i.opcode ≠ .store →
    exec i { s with pendingInput := v } = mapNext (fun t => { t with pendingInput := v }) (exec i s)

/-- R25, R28: no instruction reads `LAST_OUTPUT` or `LAST_OP`; with the self-test off no step does: memory, `pc`, `STATUS` and `ERROR` come out the same
whatever they hold. -/
def Obligations.NoStepReadsLastOutputOrLastOp : Prop :=
  ∀ (s t : State) (o : Option Int) (p : Option Opcode), s.config.selfTest = false → step s = .next t →
    ∃ u, step { s with lastOutput := o, lastOp := p } = .next u ∧
      u.mem = t.mem ∧ u.pc = t.pc ∧ u.status = t.status ∧ u.error = t.error

/-! ## Tools -/

/-- R75, R76: an assembled instruction line is the canonical encoding of a well-formed instruction whose destination, if it has one, is direct. -/
def Obligations.AssembledLinesDecode : Prop :=
  ∀ (labels : List (Nat × Nat)) (l : AsmLine) (cells rest : List Int), assembleLine labels l = some cells →
    (∀ n, l ≠ .word n) → (∀ n, l ≠ .label n) →
    cells.length = l.size ∧ ∃ i, decode (cells ++ rest) = .ok (i, rest) ∧ i.wf = true ∧ encode i = cells ∧
      ∀ d, i.destination = some d → d.mode = .direct

/-- R76: a listing that assembles gives as many cells as its lines stand for. -/
def Obligations.AListingAssemblesToItsSize : Prop :=
  ∀ (lines : List AsmLine) (p : List Int), assemble lines = some p →
    p.length = (lines.map AsmLine.size).sum

/-- R76: a label that is defined once stands for the address of the cell after it. -/
def Obligations.ALabelIsTheAddressOfTheNextCell : Prop :=
  ∀ (before after : List AsmLine) (name a : Nat),
    findLabel (labelsFrom 0 (before ++ AsmLine.label name :: after)) name = some a →
      a = (before.map AsmLine.size).sum

/-- The host's way to place an instruction (the model's choice, log 4 and log 5): a table word the decoder reads is what the very next step runs. -/
def Obligations.APlacedTableWordRunsNext : Prop :=
  ∀ (s : State) (nbits w : Nat) (i : Instr), decodeTableWord nbits w = some i →
    InstrAt (s.withFetchWord nbits w) i ∧ step (s.withFetchWord nbits w) = exec i (s.withFetchWord nbits w)

/-! ## Codes and names -/

/-- R151: each of the six errors has its own code and its own name, whatever its fields. -/
def Obligations.EachErrorHasItsCodeAndName : Prop :=
  (∀ pc op w, (ErrorRecord.unknownOpcode pc op w).code = 1 ∧ (ErrorRecord.unknownOpcode pc op w).name = "UnknownOpcode") ∧
  (∀ pc op k r, (ErrorRecord.invalidWriteMode pc op k r).code = 2 ∧ (ErrorRecord.invalidWriteMode pc op k r).name = "InvalidWriteMode") ∧
  (∀ pc op x k a, (ErrorRecord.addressOutOfBounds pc op x k a).code = 3 ∧
    (ErrorRecord.addressOutOfBounds pc op x k a).name = "AddressOutOfBounds") ∧
  (∀ pc op k m, (ErrorRecord.unknownParameterMode pc op k m).code = 4 ∧
    (ErrorRecord.unknownParameterMode pc op k m).name = "UnknownParameterMode") ∧
  (∀ pc op v, (ErrorRecord.selfTestFailure pc op v).code = 5 ∧ (ErrorRecord.selfTestFailure pc op v).name = "SelfTestFailure") ∧
  (∀ pc op v, (ErrorRecord.wordOverflow pc op v).code = 6 ∧ (ErrorRecord.wordOverflow pc op v).name = "WordOverflow")
end

