-- ==== Sys2Proof/Laws/Decode.lean ====
section
/-! SUPPORT. What the decoder can answer, and the digits of a canonical word. -/

namespace Sys2Proof

/-! ## Modes and digits -/

/-- A mode read from a decimal digit is well formed. -/
theorem Mode.ofDigit_wf {d : Nat} (h : d ≤ 9) : (Mode.ofDigit d).wf = true := by
  match d with
  | 0 => rfl
  | 1 => rfl
  | k + 2 => simp [Mode.ofDigit, Mode.wf]; omega

@[simp] theorem Mode.digit_ofDigit (d : Nat) : (Mode.ofDigit d).digit = d := by
  match d with
  | 0 => rfl
  | 1 => rfl
  | k + 2 => rfl

theorem Mode.ofDigit_digit {m : Mode} (h : m.wf = true) : Mode.ofDigit m.digit = m := by
  cases m with
  | direct => rfl
  | immediate => rfl
  | other k =>
    simp [Mode.wf] at h
    match k, h with
    | k + 2, _ => rfl

theorem Mode.digit_le {m : Mode} (h : m.wf = true) : m.digit ≤ 9 := by
  cases m <;> simp_all [Mode.wf, Mode.digit]

theorem slotMode_wf (w i : Nat) : (slotMode w i).wf = true :=
  Mode.ofDigit_wf (Nat.le_of_lt_succ (Nat.mod_lt _ (by decide)))

/-- The digits of a word laid out by R75. -/
theorem slotMode_of_digits {n : Nat} {m1 m2 m3 : Mode} (hn : n < 100) (h1 : m1.wf = true) (h2 : m2.wf = true) (h3 : m3.wf = true) :
    slotMode (n + 100 * m1.digit + 1000 * m2.digit + 10000 * m3.digit) 1 = m1 ∧
    slotMode (n + 100 * m1.digit + 1000 * m2.digit + 10000 * m3.digit) 2 = m2 ∧
    slotMode (n + 100 * m1.digit + 1000 * m2.digit + 10000 * m3.digit) 3 = m3 := by
  have d1 := Mode.digit_le h1
  have d2 := Mode.digit_le h2
  have d3 := Mode.digit_le h3
  refine ⟨?_, ?_, ?_⟩
  · rw [slotMode, Sys2Proof.digit, show (n + 100 * m1.digit + 1000 * m2.digit + 10000 * m3.digit) / 10 ^ (1 + 1) % 10 = m1.digit by omega,
      Mode.ofDigit_digit h1]
  · rw [slotMode, Sys2Proof.digit, show (n + 100 * m1.digit + 1000 * m2.digit + 10000 * m3.digit) / 10 ^ (2 + 1) % 10 = m2.digit by omega,
      Mode.ofDigit_digit h2]
  · rw [slotMode, Sys2Proof.digit, show (n + 100 * m1.digit + 1000 * m2.digit + 10000 * m3.digit) / 10 ^ (3 + 1) % 10 = m3.digit by omega,
      Mode.ofDigit_digit h3]

/-! ## The table -/

theorem Opcode.number_lt (op : Opcode) : op.number < 100 := by cases op <;> decide

theorem Opcode.ofNumber_number (op : Opcode) : Opcode.ofNumber op.number = some op := by cases op <;> rfl

/-- The table gives each number at most one opcode, its own. -/
theorem Opcode.ofNumber_eq_some_iff (n : Nat) (op : Opcode) : Opcode.ofNumber n = some op ↔ n = op.number := by
  constructor
  · intro h
    unfold Opcode.ofNumber at h
    split at h <;> first | (cases h; rfl) | cases h
  · rintro rfl; exact Opcode.ofNumber_number op

theorem Opcode.ofNumber_eq_none_iff (n : Nat) : Opcode.ofNumber n = none ↔ ¬ (1 ≤ n ∧ n ≤ 8 ∨ n = 99) := by
  constructor
  · rintro h (hn | rfl)
    · obtain ⟨h1, h8⟩ := hn
      interval_cases n <;> cases h
    · cases h
  · intro h
    cases ho : Opcode.ofNumber n with
    | none => rfl
    | some op =>
      have := (Opcode.ofNumber_eq_some_iff _ _).1 ho
      cases op <;> simp [Opcode.number] at this <;> omega

@[simp] theorem Instr.params_length (i : Instr) : i.params.length = i.opcode.paramCount := by cases i <;> rfl

/-! ## The opcode of a word -/

theorem decodeOpcode_ok_iff (w : Int) (op : Opcode) :
    decodeOpcode w = .ok op ↔ 0 ≤ w ∧ w.toNat % 100 = op.number := by
  unfold decodeOpcode
  split
  · simp; omega
  · cases h : Opcode.ofNumber (w.toNat % 100) with
    | none =>
      simp only [reduceCtorEq, false_iff, not_and]
      intro _ hn
      rw [hn, Opcode.ofNumber_number] at h
      cases h
    | some op' =>
      have h' := (Opcode.ofNumber_eq_some_iff _ _).1 h
      have hw : 0 ≤ w := by omega
      simp only [Except.ok.injEq, hw, true_and]
      constructor
      · rintro rfl; exact h'
      · intro hn; rw [hn, Opcode.ofNumber_number] at h; cases h; rfl

theorem decodeOpcode_canonicalWord (op : Opcode) (m1 m2 m3 : Mode) : decodeOpcode (canonicalWord op m1 m2 m3) = .ok op := by
  rw [decodeOpcode_ok_iff]
  have := op.number_lt
  unfold canonicalWord
  omega

theorem decodeOpcode_error_iff (w : Int) (e : DecodeError) :
    decodeOpcode w = .error e ↔
      (w < 0 ∧ e = .negativeWord w) ∨
      (0 ≤ w ∧ Opcode.ofNumber (w.toNat % 100) = none ∧ e = .unknownOpcode (w.toNat % 100) w) := by
  unfold decodeOpcode
  split
  · next h => simp [h, eq_comm (a := e)]
  · next h =>
    cases ho : Opcode.ofNumber (w.toNat % 100) with
    | none => simp [h, eq_comm (a := e)]; omega
    | some op => simp [h]

/-! ## What decoding can answer -/

/-- The parameters of the cells after a word: each cell with its slot's mode. -/
def paramsFrom (w : Nat) : Nat → List Int → List Param
  | _, [] => []
  | slot, r :: t => ⟨slotMode w slot, r⟩ :: paramsFrom w (slot + 1) t

/-- Parameters decode exactly when the opcode's cells are there: they are the first ones, each with its slot's mode. -/
theorem decodeParams_ok_iff (op : Opcode) (w : Nat) (cells : List Int) (i : Instr) (rest : List Int) :
    decodeParams op w cells = .ok (i, rest) ↔
      ∃ raws, cells = raws ++ rest ∧ raws.length = op.paramCount ∧ i.opcode = op ∧ i.params = paramsFrom w 1 raws := by
  constructor
  · intro h
    cases op <;> simp only [decodeParams, decodeF1, decodeF2, decodeF3] at h <;>
      (try split at h) <;> cases h
    · next r1 r2 r3 => exact ⟨[r1, r2, r3], rfl, rfl, rfl, rfl⟩
    · next r1 r2 r3 => exact ⟨[r1, r2, r3], rfl, rfl, rfl, rfl⟩
    · next r1 => exact ⟨[r1], rfl, rfl, rfl, rfl⟩
    · next r1 => exact ⟨[r1], rfl, rfl, rfl, rfl⟩
    · next r1 r2 => exact ⟨[r1, r2], rfl, rfl, rfl, rfl⟩
    · next r1 r2 => exact ⟨[r1, r2], rfl, rfl, rfl, rfl⟩
    · next r1 r2 r3 => exact ⟨[r1, r2, r3], rfl, rfl, rfl, rfl⟩
    · next r1 r2 r3 => exact ⟨[r1, r2, r3], rfl, rfl, rfl, rfl⟩
    · exact ⟨[], rfl, rfl, rfl, rfl⟩
  · rintro ⟨raws, rfl, hl, rfl, hp⟩
    cases i <;> simp only [Instr.opcode, Opcode.paramCount] at hl <;>
      match raws, hl with
      | [], _ => cases hp <;> rfl
      | [_], _ => cases hp <;> rfl
      | [_, _], _ => cases hp <;> rfl
      | [_, _, _], _ => cases hp <;> rfl

/-- Parameters fail only for the lowest slot whose cell is missing. -/
theorem decodeParams_error_iff (op : Opcode) (w : Nat) (cells : List Int) (e : DecodeError) :
    decodeParams op w cells = .error e ↔
      cells.length < op.paramCount ∧ e = .missingParameter op (cells.length + 1) := by
  rcases cells with _ | ⟨r1, _ | ⟨r2, _ | ⟨r3, t⟩⟩⟩ <;> cases op <;>
    simp [decodeParams, decodeF1, decodeF2, decodeF3, Opcode.paramCount, eq_comm (a := e)]

theorem decode_cons_of_error {w : Int} {e : DecodeError} (cs : List Int) (h : decodeOpcode w = .error e) :
    decode (w :: cs) = .error e := by simp only [decode, h]

theorem decode_cons_of_ok {w : Int} {op : Opcode} (cs : List Int) (h : decodeOpcode w = .ok op) :
    decode (w :: cs) = decodeParams op w.toNat cs := by simp only [decode, h]

/-- Cells decode to an instruction exactly when the first is a word of its opcode and its parameters follow. -/
theorem decode_ok_iff (cells : List Int) (i : Instr) (rest : List Int) :
    decode cells = .ok (i, rest) ↔
      ∃ w raws, cells = w :: (raws ++ rest) ∧ 0 ≤ w ∧ w.toNat % 100 = i.opcode.number ∧
        raws.length = i.opcode.paramCount ∧ i.params = paramsFrom w.toNat 1 raws := by
  cases cells with
  | nil => simp [decode]
  | cons w cs =>
    cases ho : decodeOpcode w with
    | error e =>
      rw [decode_cons_of_error cs ho]
      simp only [reduceCtorEq, false_iff]
      rintro ⟨w', raws, hc, h0, hn, -⟩
      cases hc
      rw [(decodeOpcode_ok_iff _ _).2 ⟨h0, hn⟩] at ho
      cases ho
    | ok op =>
      have hop := (decodeOpcode_ok_iff _ _).1 ho
      rw [decode_cons_of_ok cs ho, decodeParams_ok_iff]
      constructor
      · rintro ⟨raws, rfl, hl, rfl, hp⟩
        exact ⟨w, raws, rfl, hop.1, hop.2, hl, hp⟩
      · rintro ⟨w', raws, hc, h0, hn, hl, hp⟩
        cases hc
        rw [(decodeOpcode_ok_iff _ _).2 ⟨h0, hn⟩] at ho
        cases ho
        exact ⟨raws, rfl, hl, rfl, hp⟩

/-- The ways cells are no instruction. -/
theorem decode_error_iff (cells : List Int) (e : DecodeError) :
    decode cells = .error e ↔
      (cells = [] ∧ e = .noWord) ∨
      ∃ w cs, cells = w :: cs ∧
        ((w < 0 ∧ e = .negativeWord w) ∨
         (0 ≤ w ∧ Opcode.ofNumber (w.toNat % 100) = none ∧ e = .unknownOpcode (w.toNat % 100) w) ∨
         ∃ op, 0 ≤ w ∧ w.toNat % 100 = op.number ∧ cs.length < op.paramCount ∧ e = .missingParameter op (cs.length + 1)) := by
  cases cells with
  | nil => simp [decode, eq_comm (a := e)]
  | cons w cs =>
    cases ho : decodeOpcode w with
    | error e' =>
      rw [decode_cons_of_error cs ho]
      have h := (decodeOpcode_error_iff _ _).1 ho
      have hno : ∀ op : Opcode, ¬ (0 ≤ w ∧ w.toNat % 100 = op.number) := by
        intro op hop
        rw [(decodeOpcode_ok_iff _ _).2 hop] at ho
        cases ho
      simp only [Except.error.injEq, reduceCtorEq, false_and, false_or, List.cons.injEq]
      constructor
      · rintro rfl
        refine ⟨w, cs, ⟨rfl, rfl⟩, ?_⟩
        rcases h with h | h
        · exact .inl h
        · exact .inr (.inl h)
      · rintro ⟨w', cs', ⟨rfl, rfl⟩, h' | h' | ⟨op, h0, hn, -⟩⟩
        · rcases h with h | h
          · rw [h.2, h'.2]
          · omega
        · rcases h with h | h
          · omega
          · rw [h.2.2, h'.2.2]
        · exact absurd ⟨h0, hn⟩ (hno op)
    | ok op =>
      have hop := (decodeOpcode_ok_iff _ _).1 ho
      rw [decode_cons_of_ok cs ho, decodeParams_error_iff]
      simp only [reduceCtorEq, false_and, false_or, List.cons.injEq]
      constructor
      · rintro ⟨hl, rfl⟩
        exact ⟨w, cs, ⟨rfl, rfl⟩, .inr (.inr ⟨op, hop.1, hop.2, hl, rfl⟩)⟩
      · rintro ⟨w', cs', ⟨rfl, rfl⟩, h' | h' | ⟨op', h0, hn, hl, he⟩⟩
        · omega
        · rw [hop.2, Opcode.ofNumber_number] at h'; cases h'.2.1
        · have : op' = op := by
            have h1 := Opcode.ofNumber_number op'
            rw [← hn, hop.2, Opcode.ofNumber_number] at h1
            exact (Option.some.inj h1).symm
          subst this
          exact ⟨hl, he⟩

/-- Cells after an instruction do not change what it decodes to. -/
theorem decode_append {cells rest : List Int} {i : Instr} (extra : List Int) (h : decode cells = .ok (i, rest)) :
    decode (cells ++ extra) = .ok (i, rest ++ extra) := by
  obtain ⟨w, raws, rfl, h0, hn, hl, hp⟩ := (decode_ok_iff _ _ _).1 h
  exact (decode_ok_iff _ _ _).2 ⟨w, raws, by simp, h0, hn, hl, hp⟩

/-- An instruction decodes from its own cells alone. -/
theorem decode_own_cells {cells rest : List Int} {i : Instr} (h : decode cells = .ok (i, rest)) :
    ∃ own, cells = own ++ rest ∧ own.length = i.opcode.paramCount + 1 ∧ decode own = .ok (i, []) := by
  obtain ⟨w, raws, rfl, h0, hn, hl, hp⟩ := (decode_ok_iff _ _ _).1 h
  exact ⟨w :: raws, rfl, by simp [hl], (decode_ok_iff _ _ _).2 ⟨w, raws, by simp, h0, hn, hl, hp⟩⟩

/-- What decodes is well formed: every mode is a decimal digit. -/
theorem decode_wf {cells rest : List Int} {i : Instr} (h : decode cells = .ok (i, rest)) :
    ∀ p ∈ i.params, p.wf = true := by
  obtain ⟨w, raws, rfl, -, -, -, hp⟩ := (decode_ok_iff _ _ _).1 h
  rw [hp]
  clear hp h
  generalize 1 = slot
  induction raws generalizing slot with
  | nil => simp [paramsFrom]
  | cons r t ih =>
    intro p hm
    rcases List.mem_cons.1 hm with rfl | hm
    · exact slotMode_wf ..
    · exact ih (slot + 1) p hm

theorem paramsFrom_getElem? (w slot : Nat) (raws : List Int) (k : Nat) :
    (paramsFrom w slot raws)[k]? = (raws[k]?).map fun r => ⟨slotMode w (slot + k), r⟩ := by
  induction raws generalizing slot k with
  | nil => simp [paramsFrom]
  | cons r t ih =>
    cases k with
    | zero => simp [paramsFrom]
    | succ k => simp [paramsFrom, ih, Nat.add_comm, Nat.add_left_comm]

end Sys2Proof
end

