-- ==== Sys2Proof/Laws/Memory.lean ====
section
/-! SUPPORT. The memory's laws: a read after a write, every operation keeps the canonical form, and the memory of a list of values. -/

namespace Sys2Proof.Machine

/-! ## Reading -/

@[simp] theorem Memory.inBounds_iff (m : Memory) (a : Int) :
    m.inBounds a = true ↔ 0 ≤ a ∧ a < (m.len : Int) := by
  simp [Memory.inBounds]

theorem Memory.read_eq_some_iff (m : Memory) (a : Int) (v : Int) :
    m.read a = some v ↔ (0 ≤ a ∧ a < (m.len : Int)) ∧ Memory.lookup m.cells a.toNat = v := by
  simp [Memory.read]

theorem Memory.read_eq_none_iff (m : Memory) (a : Int) :
    m.read a = none ↔ a < 0 ∨ (m.len : Int) ≤ a := by
  simp only [Memory.read, Memory.inBounds_iff]
  split <;> simp <;> omega

theorem Memory.exists_read (m : Memory) (a : Int) (h0 : 0 ≤ a) (h1 : a < (m.len : Int)) :
    ∃ v, m.read a = some v := ⟨_, (m.read_eq_some_iff a _).2 ⟨⟨h0, h1⟩, rfl⟩⟩

/-! ## Writing -/

theorem Memory.lookup_erase (l : List (Nat × Int)) (a b : Nat) :
    Memory.lookup (Memory.erase l a) b = if b = a then 0 else Memory.lookup l b := by
  induction l with
  | nil => simp [Memory.erase, Memory.lookup]
  | cons c t ih =>
    obtain ⟨k, x⟩ := c
    by_cases hk : k = a <;> by_cases hb : b = a <;> simp_all [Memory.erase, Memory.lookup]
    exact fun h => absurd h.symm hb

theorem Memory.lookup_place (l : List (Nat × Int)) (a : Nat) (v : Int) (b : Nat)
    (h : Memory.lookup l a = 0) (hv : ∀ c ∈ l, c.1 ≠ a) :
    Memory.lookup (Memory.place l a v) b = if b = a then v else Memory.lookup l b := by
  induction l with
  | nil => simp [Memory.place, Memory.lookup, eq_comm]
  | cons c t ih =>
    obtain ⟨k, x⟩ := c
    have hk : k ≠ a := hv (k, x) (by simp)
    have ht : ∀ c ∈ t, c.1 ≠ a := fun c hc => hv c (by simp [hc])
    have hl : Memory.lookup t a = 0 := by simpa [Memory.lookup, hk] using h
    unfold Memory.place
    split
    · simp [Memory.lookup, eq_comm (a := a)]
    · simp only [Memory.lookup, ih hl ht]
      by_cases hb : b = a <;> simp_all

theorem Memory.erase_keys (l : List (Nat × Int)) (a : Nat) : ∀ c ∈ Memory.erase l a, c.1 ≠ a := by
  induction l with
  | nil => simp [Memory.erase]
  | cons c t ih =>
    obtain ⟨k, x⟩ := c
    unfold Memory.erase
    split
    · exact ih
    · rename_i hk
      intro c hc
      rcases List.mem_cons.1 hc with rfl | hc
      · exact hk
      · exact ih c hc

/-- A read after a write, of the same address or another one. -/
theorem Memory.lookup_insert (l : List (Nat × Int)) (a : Nat) (v : Int) (b : Nat) :
    Memory.lookup (Memory.insert l a v) b = if b = a then v else Memory.lookup l b := by
  unfold Memory.insert
  split
  · next h => rw [Memory.lookup_erase, h]
  · rw [Memory.lookup_place _ _ _ _ (by simp [Memory.lookup_erase]) (Memory.erase_keys l a), Memory.lookup_erase]
    split <;> rfl

@[simp] theorem Memory.put_len (m : Memory) (a : Int) (v : Int) : (m.put a v).len = m.len := rfl

theorem Memory.read_put (m : Memory) (a : Int) (v : Int) (b : Int) (ha : 0 ≤ a) (hl : a < (m.len : Int)) :
    (m.put a v).read b = if b = a then some v else m.read b := by
  unfold Memory.read
  simp only [Memory.inBounds_iff, Memory.put_len]
  by_cases hb : b = a
  · subst hb; simp [ha, hl, Memory.put, Memory.lookup_insert]
  · simp only [hb, if_false]
    split
    · next h =>
      have : b.toNat ≠ a.toNat := by omega
      simp [Memory.put, Memory.lookup_insert, this]
    · rfl

/-- Other addresses read as before, whatever the address written. -/
theorem Memory.read_put_of_ne (m : Memory) (a : Int) (v : Int) (b : Int) (ha : 0 ≤ a) (h : b ≠ a) :
    (m.put a v).read b = m.read b := by
  unfold Memory.read
  simp only [Memory.inBounds_iff, Memory.put_len]
  split
  · next hb =>
    have : b.toNat ≠ a.toNat := by omega
    simp [Memory.put, Memory.lookup_insert, this]
  · rfl

theorem Memory.write_eq_some_iff (m : Memory) (a : Int) (v : Int) (m' : Memory) :
    m.write a v = some m' ↔ (0 ≤ a ∧ a < (m.len : Int)) ∧ m' = m.put a v := by
  simp [Memory.write, eq_comm (a := m')]

theorem Memory.write_eq_none_iff (m : Memory) (a : Int) (v : Int) :
    m.write a v = none ↔ a < 0 ∨ (m.len : Int) ≤ a := by
  simp only [Memory.write, Memory.inBounds_iff]
  split <;> simp <;> omega

/-! ## The canonical form -/

theorem Memory.cellsOk_cons (len lo a : Nat) (v : Int) (t : List (Nat × Int)) :
    Memory.cellsOk len lo ((a, v) :: t) = true ↔ lo ≤ a ∧ a < len ∧ v ≠ 0 ∧ Memory.cellsOk len (a + 1) t = true := by
  simp [Memory.cellsOk, and_assoc]

theorem Memory.cellsOk_mono {len len' lo lo' : Nat} {l : List (Nat × Int)} (hl : len ≤ len') (h : lo' ≤ lo)
    (hok : Memory.cellsOk len lo l = true) : Memory.cellsOk len' lo' l = true := by
  induction l generalizing lo lo' with
  | nil => rfl
  | cons c t ih =>
    obtain ⟨a, v⟩ := c
    rw [Memory.cellsOk_cons] at hok ⊢
    exact ⟨by omega, by omega, hok.2.2.1, ih (Nat.le_refl _) hok.2.2.2⟩

theorem Memory.cellsOk_erase {len lo : Nat} {l : List (Nat × Int)} (a : Nat)
    (hok : Memory.cellsOk len lo l = true) : Memory.cellsOk len lo (Memory.erase l a) = true := by
  induction l generalizing lo with
  | nil => rfl
  | cons c t ih =>
    obtain ⟨k, x⟩ := c
    rw [Memory.cellsOk_cons] at hok
    unfold Memory.erase
    split
    · exact ih (Memory.cellsOk_mono (Nat.le_refl _) (by omega) hok.2.2.2)
    · exact (Memory.cellsOk_cons ..).2 ⟨hok.1, hok.2.1, hok.2.2.1, ih hok.2.2.2⟩

theorem Memory.cellsOk_place {len lo a : Nat} {v : Int} {l : List (Nat × Int)} (ha : a < len) (hlo : lo ≤ a) (hv : v ≠ 0)
    (hk : ∀ c ∈ l, c.1 ≠ a) (hok : Memory.cellsOk len lo l = true) :
    Memory.cellsOk len lo (Memory.place l a v) = true := by
  induction l generalizing lo with
  | nil => exact (Memory.cellsOk_cons ..).2 ⟨hlo, ha, hv, rfl⟩
  | cons c t ih =>
    obtain ⟨k, x⟩ := c
    have hka : k ≠ a := hk (k, x) (by simp)
    rw [Memory.cellsOk_cons] at hok
    unfold Memory.place
    split
    · exact (Memory.cellsOk_cons ..).2 ⟨hlo, ha, hv, (Memory.cellsOk_cons ..).2 ⟨by omega, hok.2.1, hok.2.2.1, hok.2.2.2⟩⟩
    · exact (Memory.cellsOk_cons ..).2
        ⟨hok.1, hok.2.1, hok.2.2.1, ih (by omega) (fun c hc => hk c (by simp [hc])) hok.2.2.2⟩

/-- A write keeps the canonical form. -/
theorem Memory.put_wf {m : Memory} {a : Int} (v : Int) (h0 : 0 ≤ a) (ha : a < (m.len : Int)) (h : m.wf = true) :
    (m.put a v).wf = true := by
  have he := Memory.cellsOk_erase a.toNat h
  simp only [Memory.wf, Memory.put, Memory.insert]
  split
  · exact he
  · next hv => exact Memory.cellsOk_place (by omega) (by omega) hv (Memory.erase_keys _ _) he

theorem Memory.write_wf {m m' : Memory} {a : Int} {v : Int} (h : m.wf = true) (hw : m.write a v = some m') :
    m'.wf = true := by
  obtain ⟨⟨h0, h1⟩, rfl⟩ := (Memory.write_eq_some_iff ..).1 hw
  exact Memory.put_wf v h0 h1 h

theorem Memory.load_wf {m : Memory} {a : Nat} (l : List Int) (h : m.wf = true) : (m.load a l).wf = true := by
  induction l generalizing m a with
  | nil => exact h
  | cons v t ih =>
    refine ih (Memory.put_wf v (by omega) (by show (a : Int) < ((max m.len (a + 1) : Nat) : Int); omega) ?_)
    exact Memory.cellsOk_mono (Nat.le_max_left ..) (Nat.le_refl _) h

/-! ## The memory of a list -/

theorem Memory.cellsOf_ok {len a : Nat} (l : List Int) (h : a + l.length ≤ len) :
    Memory.cellsOk len a (Memory.cellsOf a l) = true := by
  induction l generalizing a with
  | nil => rfl
  | cons v t ih =>
    have ht := ih (a := a + 1) (by simp at h; omega)
    unfold Memory.cellsOf
    split
    · exact Memory.cellsOk_mono (Nat.le_refl _) (by omega) ht
    · next hv => exact (Memory.cellsOk_cons ..).2 ⟨Nat.le_refl _, by simp at h; omega, hv, ht⟩

theorem Memory.ofList_wf (l : List Int) : (Memory.ofList l).wf = true :=
  Memory.cellsOf_ok l (by simp [Memory.ofList])

theorem Memory.lookup_of_lt {len lo b : Nat} {l : List (Nat × Int)} (hok : Memory.cellsOk len lo l = true) (h : b < lo) :
    Memory.lookup l b = 0 := by
  induction l generalizing lo with
  | nil => rfl
  | cons c t ih =>
    obtain ⟨k, x⟩ := c
    rw [Memory.cellsOk_cons] at hok
    have : k ≠ b := by omega
    simpa [Memory.lookup, this] using ih hok.2.2.2 (by omega)

theorem Memory.lookup_cellsOf (a : Nat) (l : List Int) (k : Nat) (h : k < l.length) :
    Memory.lookup (Memory.cellsOf a l) (a + k) = l[k] := by
  induction l generalizing a k with
  | nil => simp at h
  | cons v t ih =>
    have ht := Memory.cellsOf_ok (len := a + 1 + t.length) (a := a + 1) t (Nat.le_refl _)
    cases k with
    | zero =>
      unfold Memory.cellsOf
      split
      · next hv => simpa [hv] using Memory.lookup_of_lt ht (by omega)
      · simp [Memory.lookup]
    | succ k =>
      have hk := ih (a + 1) k (by simpa using h)
      have e : a + 1 + k = a + (k + 1) := by omega
      rw [e] at hk
      unfold Memory.cellsOf
      split
      · simpa using hk
      · simpa [Memory.lookup] using hk

/-- Cell `k` of the memory of a list is its element `k` (R180). -/
theorem Memory.read_ofList (l : List Int) (k : Nat) (h : k < l.length) : (Memory.ofList l).read (k : Int) = some l[k] := by
  rw [Memory.read_eq_some_iff]
  exact ⟨⟨by omega, by simp [Memory.ofList]; omega⟩, by simpa [Memory.ofList] using Memory.lookup_cellsOf 0 l k h⟩

@[simp] theorem Memory.toList_length (m : Memory) : m.toList.length = m.len := by simp [Memory.toList]

/-- The sequence a memory holds, element by element (R187). -/
theorem Memory.read_toList (m : Memory) (k : Nat) (h : k < m.toList.length) : m.read (k : Int) = some m.toList[k] := by
  rw [Memory.read_eq_some_iff]
  refine ⟨⟨by omega, by simp at h; omega⟩, by simp [Memory.toList]⟩

/-! ## The window of a fetch -/

theorem Memory.window_length_le (m : Memory) (a : Int) (n : Nat) : (m.window a n).length ≤ n := by
  induction n generalizing a with
  | zero => simp [Memory.window]
  | succ n ih =>
    unfold Memory.window
    split
    · simpa using ih (a + 1)
    · simp

theorem Memory.read_window (m : Memory) (a : Int) (n k : Nat) (h : k < (m.window a n).length) :
    m.read (a + (k : Int)) = some (m.window a n)[k] := by
  induction n generalizing a k with
  | zero => simp [Memory.window] at h
  | succ n ih =>
    cases hr : m.read a with
    | none => simp [Memory.window, hr] at h
    | some v =>
      cases k with
      | zero => simp [Memory.window, hr]
      | succ k =>
        have hk : k < (m.window (a + 1) n).length := by simpa [Memory.window, hr] using h
        have e : a + ((k + 1 : Nat) : Int) = a + 1 + (k : Int) := by push_cast; omega
        rw [e, ih (a + 1) k hk]
        simp [Memory.window, hr]

/-- The window ends only at its size or where a cell is missing. -/
theorem Memory.window_end (m : Memory) (a : Int) (n : Nat) (h : (m.window a n).length < n) :
    m.read (a + ((m.window a n).length : Int)) = none := by
  induction n generalizing a with
  | zero => omega
  | succ n ih =>
    cases hr : m.read a with
    | none => simp [Memory.window, hr]
    | some v =>
      have hl : (m.window (a + 1) n).length < n := by simpa [Memory.window, hr] using h
      have := ih (a + 1) hl
      simp only [Memory.window, hr, List.length_cons]
      push_cast
      rwa [← add_assoc, add_right_comm]

end Sys2Proof.Machine
end

