-- ==== Sys2Proof/Laws/State.lean ====
section
/-! SUPPORT. One lemma per field per update of State, so that no proof unfolds a record update. -/

namespace Sys2Proof.Machine

@[simp] theorem State.setMem_config (s : State) (m : Memory) : (s.setMem m).config = s.config := rfl
@[simp] theorem State.setMem_mem (s : State) (m : Memory) : (s.setMem m).mem = m := rfl
@[simp] theorem State.setMem_pc (s : State) (m : Memory) : (s.setMem m).pc = s.pc := rfl
@[simp] theorem State.setMem_pendingInput (s : State) (m : Memory) : (s.setMem m).pendingInput = s.pendingInput := rfl
@[simp] theorem State.setMem_lastOutput (s : State) (m : Memory) : (s.setMem m).lastOutput = s.lastOutput := rfl
@[simp] theorem State.setMem_status (s : State) (m : Memory) : (s.setMem m).status = s.status := rfl
@[simp] theorem State.setMem_error (s : State) (m : Memory) : (s.setMem m).error = s.error := rfl
@[simp] theorem State.setMem_lastOp (s : State) (m : Memory) : (s.setMem m).lastOp = s.lastOp := rfl

@[simp] theorem State.setPc_config (s : State) (a : Int) : (s.setPc a).config = s.config := rfl
@[simp] theorem State.setPc_mem (s : State) (a : Int) : (s.setPc a).mem = s.mem := rfl
@[simp] theorem State.setPc_pc (s : State) (a : Int) : (s.setPc a).pc = a := rfl
@[simp] theorem State.setPc_pendingInput (s : State) (a : Int) : (s.setPc a).pendingInput = s.pendingInput := rfl
@[simp] theorem State.setPc_lastOutput (s : State) (a : Int) : (s.setPc a).lastOutput = s.lastOutput := rfl
@[simp] theorem State.setPc_status (s : State) (a : Int) : (s.setPc a).status = s.status := rfl
@[simp] theorem State.setPc_error (s : State) (a : Int) : (s.setPc a).error = s.error := rfl
@[simp] theorem State.setPc_lastOp (s : State) (a : Int) : (s.setPc a).lastOp = s.lastOp := rfl

@[simp] theorem State.setPendingInput_config (s : State) (v : Int) : (s.setPendingInput v).config = s.config := rfl
@[simp] theorem State.setPendingInput_mem (s : State) (v : Int) : (s.setPendingInput v).mem = s.mem := rfl
@[simp] theorem State.setPendingInput_pc (s : State) (v : Int) : (s.setPendingInput v).pc = s.pc := rfl
@[simp] theorem State.setPendingInput_pendingInput (s : State) (v : Int) : (s.setPendingInput v).pendingInput = v := rfl
@[simp] theorem State.setPendingInput_lastOutput (s : State) (v : Int) : (s.setPendingInput v).lastOutput = s.lastOutput := rfl
@[simp] theorem State.setPendingInput_status (s : State) (v : Int) : (s.setPendingInput v).status = s.status := rfl
@[simp] theorem State.setPendingInput_error (s : State) (v : Int) : (s.setPendingInput v).error = s.error := rfl
@[simp] theorem State.setPendingInput_lastOp (s : State) (v : Int) : (s.setPendingInput v).lastOp = s.lastOp := rfl

@[simp] theorem State.setLastOutput_config (s : State) (v : Int) : (s.setLastOutput v).config = s.config := rfl
@[simp] theorem State.setLastOutput_mem (s : State) (v : Int) : (s.setLastOutput v).mem = s.mem := rfl
@[simp] theorem State.setLastOutput_pc (s : State) (v : Int) : (s.setLastOutput v).pc = s.pc := rfl
@[simp] theorem State.setLastOutput_pendingInput (s : State) (v : Int) : (s.setLastOutput v).pendingInput = s.pendingInput := rfl
@[simp] theorem State.setLastOutput_lastOutput (s : State) (v : Int) : (s.setLastOutput v).lastOutput = some v := rfl
@[simp] theorem State.setLastOutput_status (s : State) (v : Int) : (s.setLastOutput v).status = s.status := rfl
@[simp] theorem State.setLastOutput_error (s : State) (v : Int) : (s.setLastOutput v).error = s.error := rfl
@[simp] theorem State.setLastOutput_lastOp (s : State) (v : Int) : (s.setLastOutput v).lastOp = s.lastOp := rfl

@[simp] theorem State.setStatus_config (s : State) (st : Status) : (s.setStatus st).config = s.config := rfl
@[simp] theorem State.setStatus_mem (s : State) (st : Status) : (s.setStatus st).mem = s.mem := rfl
@[simp] theorem State.setStatus_pc (s : State) (st : Status) : (s.setStatus st).pc = s.pc := rfl
@[simp] theorem State.setStatus_pendingInput (s : State) (st : Status) : (s.setStatus st).pendingInput = s.pendingInput := rfl
@[simp] theorem State.setStatus_lastOutput (s : State) (st : Status) : (s.setStatus st).lastOutput = s.lastOutput := rfl
@[simp] theorem State.setStatus_status (s : State) (st : Status) : (s.setStatus st).status = st := rfl
@[simp] theorem State.setStatus_error (s : State) (st : Status) : (s.setStatus st).error = s.error := rfl
@[simp] theorem State.setStatus_lastOp (s : State) (st : Status) : (s.setStatus st).lastOp = s.lastOp := rfl

@[simp] theorem State.setLastOp_config (s : State) (op : Opcode) : (s.setLastOp op).config = s.config := rfl
@[simp] theorem State.setLastOp_mem (s : State) (op : Opcode) : (s.setLastOp op).mem = s.mem := rfl
@[simp] theorem State.setLastOp_pc (s : State) (op : Opcode) : (s.setLastOp op).pc = s.pc := rfl
@[simp] theorem State.setLastOp_pendingInput (s : State) (op : Opcode) : (s.setLastOp op).pendingInput = s.pendingInput := rfl
@[simp] theorem State.setLastOp_lastOutput (s : State) (op : Opcode) : (s.setLastOp op).lastOutput = s.lastOutput := rfl
@[simp] theorem State.setLastOp_status (s : State) (op : Opcode) : (s.setLastOp op).status = s.status := rfl
@[simp] theorem State.setLastOp_error (s : State) (op : Opcode) : (s.setLastOp op).error = s.error := rfl
@[simp] theorem State.setLastOp_lastOp (s : State) (op : Opcode) : (s.setLastOp op).lastOp = some op := rfl

@[simp] theorem raiseError_config (e : ErrorRecord) (s : State) : (raiseError e s).config = s.config := rfl
@[simp] theorem raiseError_mem (e : ErrorRecord) (s : State) : (raiseError e s).mem = s.mem := rfl
@[simp] theorem raiseError_pc (e : ErrorRecord) (s : State) : (raiseError e s).pc = s.pc := rfl
@[simp] theorem raiseError_pendingInput (e : ErrorRecord) (s : State) : (raiseError e s).pendingInput = s.pendingInput := rfl
@[simp] theorem raiseError_lastOutput (e : ErrorRecord) (s : State) : (raiseError e s).lastOutput = s.lastOutput := rfl
@[simp] theorem raiseError_status (e : ErrorRecord) (s : State) : (raiseError e s).status = .faulted := rfl
@[simp] theorem raiseError_error (e : ErrorRecord) (s : State) : (raiseError e s).error = some e := rfl
@[simp] theorem raiseError_lastOp (e : ErrorRecord) (s : State) : (raiseError e s).lastOp = s.lastOp := rfl

@[simp] theorem complete_config (op : Opcode) (a : Int) (s : State) : (complete op a s).config = s.config := by
  unfold complete; split <;> rfl
@[simp] theorem complete_mem (op : Opcode) (a : Int) (s : State) : (complete op a s).mem = s.mem := by
  unfold complete; split <;> rfl
@[simp] theorem complete_pendingInput (op : Opcode) (a : Int) (s : State) : (complete op a s).pendingInput = s.pendingInput := by
  unfold complete; split <;> rfl
@[simp] theorem complete_lastOutput (op : Opcode) (a : Int) (s : State) : (complete op a s).lastOutput = s.lastOutput := by
  unfold complete; split <;> rfl
@[simp] theorem complete_status (op : Opcode) (a : Int) (s : State) : (complete op a s).status = s.status := by
  unfold complete; split <;> rfl
@[simp] theorem complete_error (op : Opcode) (a : Int) (s : State) : (complete op a s).error = s.error := by
  unfold complete; split <;> rfl
@[simp] theorem complete_lastOp (op : Opcode) (a : Int) (s : State) : (complete op a s).lastOp = some op := by
  unfold complete; split <;> rfl
/-- `pc` advances when it is the recorded one, and else is what the operation made it (R86). -/
theorem complete_pc (op : Opcode) (a : Int) (s : State) :
    (complete op a s).pc = if s.pc = a then a + (op.paramCount : Int) + 1 else s.pc := by
  unfold complete; split <;> rfl

end Sys2Proof.Machine
end

