-- ==== Sys2Proof/Laws/Operands.lean ====
section
/-! SUPPORT. The operand resolver, the range check and the memory bank: when each answers a value and when an error. -/

namespace Sys2Proof.Machine

open Sys2Proof.Safety

theorem memRead_ok_iff (s : State) (op : Opcode) (k : Nat) (a v : Int) :
    memRead s op k a = .ok v ↔ s.mem.read a = some v := by
  unfold memRead
  cases s.mem.read a <;> simp

theorem memRead_error_iff (s : State) (op : Opcode) (k : Nat) (a : Int) (e : ErrorRecord) :
    memRead s op k a = .error e ↔
      (a < 0 ∨ (s.mem.len : Int) ≤ a) ∧ e = .addressOutOfBounds (.at s.pc) (some op) .read (some k) a := by
  rw [← Memory.read_eq_none_iff]
  unfold memRead
  cases s.mem.read a <;> simp [eq_comm]

theorem memWrite_ok_iff (s : State) (pc : ErrorPc) (op : Option Opcode) (k : Option Nat) (a v : Int) (t : State) :
    memWrite s pc op k a v = .ok t ↔ (0 ≤ a ∧ a < (s.mem.len : Int)) ∧ t = s.setMem (s.mem.put a v) := by
  unfold memWrite
  cases h : s.mem.write a v with
  | none =>
    have := (Memory.write_eq_none_iff ..).1 h
    simp only [reduceCtorEq, false_iff, not_and]
    omega
  | some m =>
    obtain ⟨hb, rfl⟩ := (Memory.write_eq_some_iff ..).1 h
    simp [hb, eq_comm]

theorem memWrite_error_iff (s : State) (pc : ErrorPc) (op : Option Opcode) (k : Option Nat) (a v : Int) (e : ErrorRecord) :
    memWrite s pc op k a v = .error e ↔
      (a < 0 ∨ (s.mem.len : Int) ≤ a) ∧ e = .addressOutOfBounds pc op .write k a := by
  rw [← Memory.write_eq_none_iff s.mem a v]
  unfold memWrite
  cases s.mem.write a v <;> simp [eq_comm]

/-- A read slot gives a value exactly when the operand has it (R70). -/
theorem readOperand_ok_iff (s : State) (op : Opcode) (k : Nat) (p : Param) (v : Int) :
    readOperand s op k p = .ok v ↔ Reads s p v := by
  unfold readOperand Reads
  cases p.mode <;> simp [memRead_ok_iff]

/-- A read slot raises exactly the error of its mode or address (R70). -/
theorem readOperand_error_iff (s : State) (op : Opcode) (k : Nat) (p : Param) (e : ErrorRecord) :
    readOperand s op k p = .error e ↔ ReadTrap s op k p e := by
  unfold readOperand ReadTrap
  cases p.mode <;> simp [memRead_error_iff, eq_comm (a := e)]

/-- A destination is written exactly when it is writable, and then one cell changes (R71). -/
theorem writeOperand_ok_iff (s : State) (op : Opcode) (k : Nat) (p : Param) (v : Int) (t : State) :
    writeOperand s op k p v = .ok t ↔ Writable s p ∧ t = s.setMem (s.mem.put p.raw v) := by
  unfold writeOperand Writable
  cases p.mode <;> simp [memWrite_ok_iff]

/-- A destination raises exactly the error of its mode or address (R71). -/
theorem writeOperand_error_iff (s : State) (op : Opcode) (k : Nat) (p : Param) (v : Int) (e : ErrorRecord) :
    writeOperand s op k p v = .error e ↔ WriteTrap s op k p e := by
  unfold writeOperand WriteTrap
  cases p.mode <;> simp [memWrite_error_iff, eq_comm (a := e)]

/-- The model's range test is the range of R174. -/
theorem wordFits_iff (c : Config) (v : Int) : wordFits c v = true ↔ InRange c v := by
  unfold wordFits InRange
  cases c.wordBits <;> simp [fitsBits]

theorem checkWord_ok_iff (s : State) (op : Opcode) (v : Int) (u : Unit) :
    checkWord s op v = .ok u ↔ InRange s.config v := by
  rw [← wordFits_iff]
  unfold checkWord
  split <;> simp_all

theorem checkWord_error_iff (s : State) (op : Opcode) (v : Int) (e : ErrorRecord) :
    checkWord s op v = .error e ↔ ¬ InRange s.config v ∧ e = .wordOverflow s.pc op v := by
  rw [← wordFits_iff]
  unfold checkWord
  split <;> simp_all [eq_comm (a := e)]

theorem conditionHolds_iff (v : Int) : conditionHolds v = true ↔ v ≠ 0 := by simp [conditionHolds]

/-- An operand has at most one value. -/
theorem reads_unique {s : State} {p : Param} {v w : Int} (hv : Reads s p v) (hw : Reads s p w) : v = w := by
  have h1 := (readOperand_ok_iff s .add 0 p v).2 hv
  have h2 := (readOperand_ok_iff s .add 0 p w).2 hw
  rw [h1] at h2
  exact Except.ok.inj h2

/-! ## Binding what may raise -/

theorem bind_ok_iff {α β : Type} (x : Except ErrorRecord α) (f : α → Except ErrorRecord β) (b : β) :
    x.bind f = .ok b ↔ ∃ a, x = .ok a ∧ f a = .ok b := by
  cases x <;> simp [Except.bind]

theorem bind_error_iff {α β : Type} (x : Except ErrorRecord α) (f : α → Except ErrorRecord β) (e : ErrorRecord) :
    x.bind f = .error e ↔ x = .error e ∨ ∃ a, x = .ok a ∧ f a = .error e := by
  cases x <;> simp [Except.bind]

end Sys2Proof.Machine
end

