-- ==== Sys2Proof/Laws/Exec.lean ====
section
/-! SUPPORT. What the meanings can do, said once: each shared operation answers a state or an error under exactly these conditions, and an
instruction ends in one of the listed ways. -/

namespace Sys2Proof.Machine

open Sys2Proof.Safety

theorem conclude_of_ok {op : Opcode} {s t : State} {r : Except ErrorRecord State} (h : r = .ok t) :
    conclude op s r = .next (complete op s.pc t) := by rw [h]; rfl

theorem conclude_of_error {op : Opcode} {s : State} {e : ErrorRecord} {r : Except ErrorRecord State} (h : r = .error e) :
    conclude op s r = .next (raiseError e s) := by rw [h]; rfl

/-- An instruction completes or raises; it never faults and is never refused. -/
theorem conclude_cases {op : Opcode} {s t : State} {r : Except ErrorRecord State} (h : conclude op s r = .next t) :
    (∃ s', r = .ok s' ∧ t = complete op s.pc s') ∨ (∃ e, r = .error e ∧ t = raiseError e s) := by
  cases r with
  | ok s' => exact .inl ⟨s', rfl, by simpa [conclude, eq_comm] using h⟩
  | error e => exact .inr ⟨e, rfl, by simpa [conclude, eq_comm] using h⟩

theorem conclude_is_next (op : Opcode) (s : State) (r : Except ErrorRecord State) : ∃ t, conclude op s r = .next t := by
  cases r <;> exact ⟨_, rfl⟩

/-! ## The shared operations -/

theorem arithmetic_ok_iff (op : Opcode) (f : Int → Int → Int) (a b d : Param) (s t : State) :
    arithmetic op f a b d s = .ok t ↔
      ∃ x y, Reads s a x ∧ Reads s b y ∧ InRange s.config (f x y) ∧ Writable s d ∧ t = s.setMem (s.mem.put d.raw (f x y)) := by
  simp only [arithmetic, bind_ok_iff, readOperand_ok_iff, checkWord_ok_iff, writeOperand_ok_iff]
  constructor
  · rintro ⟨x, hx, y, hy, -, hr, hw, rfl⟩; exact ⟨x, y, hx, hy, hr, hw, rfl⟩
  · rintro ⟨x, y, hx, hy, hr, hw, rfl⟩; exact ⟨x, hx, y, hy, (), hr, hw, rfl⟩

theorem arithmetic_error_iff (op : Opcode) (f : Int → Int → Int) (a b d : Param) (s : State) (e : ErrorRecord) :
    arithmetic op f a b d s = .error e ↔
      ReadTrap s op 1 a e ∨
      ∃ x, Reads s a x ∧ (ReadTrap s op 2 b e ∨
        ∃ y, Reads s b y ∧ ((¬ InRange s.config (f x y) ∧ e = .wordOverflow s.pc op (f x y)) ∨
          InRange s.config (f x y) ∧ WriteTrap s op 3 d e)) := by
  simp only [arithmetic, bind_error_iff, readOperand_ok_iff, readOperand_error_iff, checkWord_ok_iff, checkWord_error_iff,
    writeOperand_error_iff, exists_const]

theorem comparison_ok_iff (op : Opcode) (holds : Int → Int → Bool) (a b d : Param) (s t : State) :
    comparison op holds a b d s = .ok t ↔
      ∃ x y, Reads s a x ∧ Reads s b y ∧ Writable s d ∧ t = s.setMem (s.mem.put d.raw (comparisonResult (holds x y))) := by
  simp only [comparison, bind_ok_iff, readOperand_ok_iff, writeOperand_ok_iff]
  constructor
  · rintro ⟨x, hx, y, hy, hw, rfl⟩; exact ⟨x, y, hx, hy, hw, rfl⟩
  · rintro ⟨x, y, hx, hy, hw, rfl⟩; exact ⟨x, hx, y, hy, hw, rfl⟩

theorem comparison_error_iff (op : Opcode) (holds : Int → Int → Bool) (a b d : Param) (s : State) (e : ErrorRecord) :
    comparison op holds a b d s = .error e ↔
      ReadTrap s op 1 a e ∨ ∃ x, Reads s a x ∧ (ReadTrap s op 2 b e ∨ ∃ y, Reads s b y ∧ WriteTrap s op 3 d e) := by
  simp only [comparison, bind_error_iff, readOperand_ok_iff, readOperand_error_iff, writeOperand_error_iff]

theorem jump_ok_iff (op : Opcode) (taken : Int → Bool) (a t : Param) (s u : State) :
    jump op taken a t s = .ok u ↔
      ∃ x, Reads s a x ∧ ((taken x = true ∧ ∃ y, Reads s t y ∧ u = s.setPc y) ∨ (taken x = false ∧ u = s)) := by
  simp only [jump, bind_ok_iff, readOperand_ok_iff]
  refine exists_congr fun x => and_congr_right fun _ => ?_
  cases taken x <;> simp [bind_ok_iff, readOperand_ok_iff, eq_comm (a := u)]

theorem jump_error_iff (op : Opcode) (taken : Int → Bool) (a t : Param) (s : State) (e : ErrorRecord) :
    jump op taken a t s = .error e ↔
      ReadTrap s op 1 a e ∨ ∃ x, Reads s a x ∧ taken x = true ∧ ReadTrap s op 2 t e := by
  simp only [jump, bind_error_iff, readOperand_ok_iff, readOperand_error_iff]
  refine or_congr_right (exists_congr fun x => and_congr_right fun _ => ?_)
  cases taken x <;> simp [bind_error_iff, readOperand_error_iff]

/-! ## Every instruction -/

/-- The value an instruction stores, when its operands have values (R100, R101, R110, R130, R131). -/
def StoredValue (i : Instr) (s : State) (v : Int) : Prop :=
  match i with
  | .add _ _ _ => InRange s.config v ∧ CheckedValue i s v
  | .mul _ _ _ => InRange s.config v ∧ CheckedValue i s v
  | .store _ => InRange s.config v ∧ CheckedValue i s v
  | .lessThan a b _ => ∃ x y, Reads s a x ∧ Reads s b y ∧ v = if x < y then 1 else 0
  | .equals a b _ => ∃ x y, Reads s a x ∧ Reads s b y ∧ v = if x = y then 1 else 0
  | .out _ => False
  | .jumpIfTrue _ _ => False
  | .jumpIfFalse _ _ => False
  | .halt => False

/-- The errors an instruction can raise: of a read slot, of the range check, of the destination. -/
def OperandError (i : Instr) (s : State) (e : ErrorRecord) : Prop :=
  (∃ k p, i.params[k]? = some p ∧ ReadTrap s i.opcode (k + 1) p e) ∨
  (∃ v, CheckedValue i s v ∧ ¬ InRange s.config v ∧ e = .wordOverflow s.pc i.opcode v) ∨
  (∃ d, i.destination = some d ∧ WriteTrap s i.opcode i.opcode.paramCount d e)

/-- The state an instruction's operation leaves, before it is completed. -/
inductive Effect (i : Instr) (s : State) : State → Prop where
  | stores {d : Param} {v : Int} (dest : i.destination = some d) (writable : Writable s d) (value : StoredValue i s v) :
      Effect i s (s.setMem (s.mem.put d.raw v))
  | outputs {a : Param} {v : Int} (is : i = .out a) (value : Reads s a v) : Effect i s (s.setLastOutput v)
  | jumps {a t : Param} {x y : Int} (is : (i = .jumpIfTrue a t ∧ x ≠ 0) ∨ (i = .jumpIfFalse a t ∧ x = 0))
      (condition : Reads s a x) (target : Reads s t y) : Effect i s (s.setPc y)
  | stays {a t : Param} {x : Int} (is : (i = .jumpIfTrue a t ∧ x = 0) ∨ (i = .jumpIfFalse a t ∧ x ≠ 0))
      (condition : Reads s a x) : Effect i s s

/-! What an effect leaves alone. -/

theorem effect_config {i : Instr} {s s' : State} (h : Effect i s s') : s'.config = s.config := by cases h <;> rfl
theorem effect_memLen {i : Instr} {s s' : State} (h : Effect i s s') : s'.mem.len = s.mem.len := by cases h <;> rfl
theorem effect_pendingInput {i : Instr} {s s' : State} (h : Effect i s s') : s'.pendingInput = s.pendingInput := by cases h <;> rfl
theorem effect_status {i : Instr} {s s' : State} (h : Effect i s s') : s'.status = s.status := by cases h <;> rfl
theorem effect_error {i : Instr} {s s' : State} (h : Effect i s s') : s'.error = s.error := by cases h <;> rfl

/-- An effect keeps the memory's canonical form. -/
theorem effect_memory_wf {i : Instr} {s s' : State} (h : Effect i s s') (hw : s.mem.wf = true) : s'.mem.wf = true := by
  cases h with
  | stores _ writable _ => exact Memory.put_wf _ writable.2.1 writable.2.2 hw
  | outputs | jumps | stays => exact hw

/-- What an instruction can do: halt sets `STATUS`; any other completes its effect, or raises an error of its operands. -/
theorem exec_cases {i : Instr} {s t : State} (h : exec i s = .next t) :
    (i = .halt ∧ t = s.setStatus .halted) ∨
    (i ≠ .halt ∧ ∃ s', Effect i s s' ∧ t = complete i.opcode s.pc s') ∨
    (i ≠ .halt ∧ ∃ e, OperandError i s e ∧ t = raiseError e s) := by
  cases i with
  | add a b d =>
    obtain ⟨s', hr, rfl⟩ | ⟨e, hr, rfl⟩ := conclude_cases h
    · obtain ⟨x, y, hx, hy, hf, hw, rfl⟩ := (arithmetic_ok_iff ..).1 hr
      exact .inr (.inl ⟨nofun, _, .stores rfl hw ⟨hf, x, y, hx, hy, rfl⟩, rfl⟩)
    · refine .inr (.inr ⟨nofun, e, ?_, rfl⟩)
      obtain h1 | ⟨x, hx, h2 | ⟨y, hy, ⟨hn, he⟩ | ⟨-, hw⟩⟩⟩ := (arithmetic_error_iff ..).1 hr
      · exact .inl ⟨0, a, rfl, h1⟩
      · exact .inl ⟨1, b, rfl, h2⟩
      · exact .inr (.inl ⟨_, ⟨x, y, hx, hy, rfl⟩, hn, he⟩)
      · exact .inr (.inr ⟨d, rfl, hw⟩)
  | mul a b d =>
    obtain ⟨s', hr, rfl⟩ | ⟨e, hr, rfl⟩ := conclude_cases h
    · obtain ⟨x, y, hx, hy, hf, hw, rfl⟩ := (arithmetic_ok_iff ..).1 hr
      exact .inr (.inl ⟨nofun, _, .stores rfl hw ⟨hf, x, y, hx, hy, rfl⟩, rfl⟩)
    · refine .inr (.inr ⟨nofun, e, ?_, rfl⟩)
      obtain h1 | ⟨x, hx, h2 | ⟨y, hy, ⟨hn, he⟩ | ⟨-, hw⟩⟩⟩ := (arithmetic_error_iff ..).1 hr
      · exact .inl ⟨0, a, rfl, h1⟩
      · exact .inl ⟨1, b, rfl, h2⟩
      · exact .inr (.inl ⟨_, ⟨x, y, hx, hy, rfl⟩, hn, he⟩)
      · exact .inr (.inr ⟨d, rfl, hw⟩)
  | store d =>
    obtain ⟨s', hr, rfl⟩ | ⟨e, hr, rfl⟩ := conclude_cases h
    · obtain ⟨_, hf, hw⟩ := (bind_ok_iff ..).1 hr
      obtain ⟨hd, rfl⟩ := (writeOperand_ok_iff ..).1 hw
      exact .inr (.inl ⟨nofun, _, .stores rfl hd ⟨(checkWord_ok_iff ..).1 hf, rfl⟩, rfl⟩)
    · refine .inr (.inr ⟨nofun, e, ?_, rfl⟩)
      obtain hf | ⟨-, -, hw⟩ := (bind_error_iff ..).1 hr
      · obtain ⟨hn, he⟩ := (checkWord_error_iff ..).1 hf
        exact .inr (.inl ⟨_, rfl, hn, he⟩)
      · exact .inr (.inr ⟨d, rfl, (writeOperand_error_iff ..).1 hw⟩)
  | out a =>
    obtain ⟨s', hr, rfl⟩ | ⟨e, hr, rfl⟩ := conclude_cases h
    · obtain ⟨x, hx, hs⟩ := (bind_ok_iff ..).1 hr
      cases hs
      exact .inr (.inl ⟨nofun, _, .outputs rfl ((readOperand_ok_iff ..).1 hx), rfl⟩)
    · refine .inr (.inr ⟨nofun, e, ?_, rfl⟩)
      obtain hx | ⟨_, _, hs⟩ := (bind_error_iff ..).1 hr
      · exact .inl ⟨0, a, rfl, (readOperand_error_iff ..).1 hx⟩
      · cases hs
  | jumpIfTrue a b =>
    obtain ⟨s', hr, rfl⟩ | ⟨e, hr, rfl⟩ := conclude_cases h
    · obtain ⟨x, hx, ⟨ht, y, hy, rfl⟩ | ⟨ht, rfl⟩⟩ := (jump_ok_iff ..).1 hr
      · exact .inr (.inl ⟨nofun, _, .jumps (.inl ⟨rfl, (conditionHolds_iff x).1 ht⟩) hx hy, rfl⟩)
      · exact .inr (.inl ⟨nofun, _, .stays (.inl ⟨rfl, by simpa [conditionHolds] using ht⟩) hx, rfl⟩)
    · refine .inr (.inr ⟨nofun, e, ?_, rfl⟩)
      obtain h1 | ⟨x, -, -, h2⟩ := (jump_error_iff ..).1 hr
      · exact .inl ⟨0, a, rfl, h1⟩
      · exact .inl ⟨1, b, rfl, h2⟩
  | jumpIfFalse a b =>
    obtain ⟨s', hr, rfl⟩ | ⟨e, hr, rfl⟩ := conclude_cases h
    · obtain ⟨x, hx, ⟨ht, y, hy, rfl⟩ | ⟨ht, rfl⟩⟩ := (jump_ok_iff ..).1 hr
      · exact .inr (.inl ⟨nofun, _, .jumps (.inr ⟨rfl, by simpa [conditionHolds] using ht⟩) hx hy, rfl⟩)
      · exact .inr (.inl ⟨nofun, _, .stays (.inr ⟨rfl, by simpa [conditionHolds] using ht⟩) hx, rfl⟩)
    · refine .inr (.inr ⟨nofun, e, ?_, rfl⟩)
      obtain h1 | ⟨x, -, -, h2⟩ := (jump_error_iff ..).1 hr
      · exact .inl ⟨0, a, rfl, h1⟩
      · exact .inl ⟨1, b, rfl, h2⟩
  | lessThan a b d =>
    obtain ⟨s', hr, rfl⟩ | ⟨e, hr, rfl⟩ := conclude_cases h
    · obtain ⟨x, y, hx, hy, hw, rfl⟩ := (comparison_ok_iff ..).1 hr
      exact .inr (.inl ⟨nofun, _, .stores rfl hw ⟨x, y, hx, hy, by simp [comparisonResult]⟩, rfl⟩)
    · refine .inr (.inr ⟨nofun, e, ?_, rfl⟩)
      obtain h1 | ⟨x, -, h2 | ⟨y, -, hw⟩⟩ := (comparison_error_iff ..).1 hr
      · exact .inl ⟨0, a, rfl, h1⟩
      · exact .inl ⟨1, b, rfl, h2⟩
      · exact .inr (.inr ⟨d, rfl, hw⟩)
  | equals a b d =>
    obtain ⟨s', hr, rfl⟩ | ⟨e, hr, rfl⟩ := conclude_cases h
    · obtain ⟨x, y, hx, hy, hw, rfl⟩ := (comparison_ok_iff ..).1 hr
      exact .inr (.inl ⟨nofun, _, .stores rfl hw ⟨x, y, hx, hy, by simp [comparisonResult]⟩, rfl⟩)
    · refine .inr (.inr ⟨nofun, e, ?_, rfl⟩)
      obtain h1 | ⟨x, -, h2 | ⟨y, -, hw⟩⟩ := (comparison_error_iff ..).1 hr
      · exact .inl ⟨0, a, rfl, h1⟩
      · exact .inl ⟨1, b, rfl, h2⟩
      · exact .inr (.inr ⟨d, rfl, hw⟩)
  | halt =>
    left
    exact ⟨rfl, (Host.Outcome.next.inj h).symm⟩

/-- Every instruction answers a next state, in every state. -/
theorem exec_is_next (i : Instr) (s : State) : ∃ t, exec i s = .next t := by
  cases i <;> first | exact conclude_is_next .. | exact ⟨_, rfl⟩

end Sys2Proof.Machine
end

