-- ==== Sys2Proof/Laws/PerInstr.lean ====
section
/-! SUPPORT. Statements made for each instruction as syntax, one lemma per constructor. -/

/-! EncodedCells: the encoding has one cell more than the instruction has parameters, and its first cell is a word of its opcode (R60, R75). -/
namespace Sys2Proof.Laws.EncodedCells

open Sys2Proof

def Statement (i : Instr) : Prop :=
  (encode i).length = i.opcode.paramCount + 1 ∧ (encode i).head?.map decodeOpcode = some (.ok i.opcode)

theorem add (a b d : Param) : Statement (.add a b d) := ⟨rfl, congrArg some (decodeOpcode_canonicalWord ..)⟩
theorem mul (a b d : Param) : Statement (.mul a b d) := ⟨rfl, congrArg some (decodeOpcode_canonicalWord ..)⟩
theorem store (d : Param) : Statement (.store d) := ⟨rfl, congrArg some (decodeOpcode_canonicalWord ..)⟩
theorem out (a : Param) : Statement (.out a) := ⟨rfl, congrArg some (decodeOpcode_canonicalWord ..)⟩
theorem jumpIfTrue (a t : Param) : Statement (.jumpIfTrue a t) := ⟨rfl, congrArg some (decodeOpcode_canonicalWord ..)⟩
theorem jumpIfFalse (a t : Param) : Statement (.jumpIfFalse a t) := ⟨rfl, congrArg some (decodeOpcode_canonicalWord ..)⟩
theorem lessThan (a b d : Param) : Statement (.lessThan a b d) := ⟨rfl, congrArg some (decodeOpcode_canonicalWord ..)⟩
theorem equals (a b d : Param) : Statement (.equals a b d) := ⟨rfl, congrArg some (decodeOpcode_canonicalWord ..)⟩
theorem halt : Statement .halt := ⟨rfl, congrArg some (decodeOpcode_canonicalWord ..)⟩

end Sys2Proof.Laws.EncodedCells
end

