-- ==== Sys2Proof/Laws/Step.lean ====
section
/-! SUPPORT. What the fetch and the step can do, said once. -/

namespace Sys2Proof.Machine

open Sys2Proof.Safety

/-! ## The cells at an address -/

theorem cellsAt_head {m : Memory} {a w : Int} {cs : List Int} (h : CellsAt m a (w :: cs)) : m.read a = some w := by
  have := h 0 (by simp)
  simpa using this

theorem cellsAt_tail {m : Memory} {a w : Int} {cs : List Int} (h : CellsAt m a (w :: cs)) : CellsAt m (a + 1) cs := by
  intro k hk
  have := h (k + 1) (by simpa using hk)
  push_cast at this
  rwa [add_comm (k : Int) 1, ← add_assoc] at this

theorem cellsAt_append_left {m : Memory} {a : Int} {cs ds : List Int} (h : CellsAt m a (cs ++ ds)) : CellsAt m a cs := by
  intro k hk
  have := h k (by simp; omega)
  rwa [List.getElem_append_left hk] at this

theorem cellsAt_window (m : Memory) (a : Int) (n : Nat) : CellsAt m a (m.window a n) := fun k h => m.read_window a n k h

/-- Cells that stand at an address are the first of every window long enough. -/
theorem cellsAt_window_prefix {m : Memory} {a : Int} {cs : List Int} {n : Nat} (h : CellsAt m a cs) (hn : cs.length ≤ n) :
    ∃ more, m.window a n = cs ++ more := by
  induction cs generalizing a n with
  | nil => exact ⟨_, rfl⟩
  | cons w cs ih =>
    match n with
    | n + 1 =>
      obtain ⟨more, hm⟩ := ih (cellsAt_tail h) (by simpa using hn)
      exact ⟨more, by simp [Memory.window, cellsAt_head h, hm]⟩

/-! ## The instruction at pc -/

theorem paramCount_le (op : Opcode) : op.paramCount + 1 ≤ longestInstr := by cases op <;> decide

/-- The instruction at `pc` is the one the fetched cells decode to. -/
theorem instrAt_iff (s : State) (i : Instr) : InstrAt s i ↔ ∃ rest, decode (fetchCells s) = .ok (i, rest) := by
  constructor
  · rintro ⟨cells, rest, hc, hd⟩
    obtain ⟨own, rfl, hl, ho⟩ := decode_own_cells hd
    obtain ⟨more, hm⟩ := cellsAt_window_prefix (n := longestInstr) (cellsAt_append_left hc) (hl ▸ paramCount_le _)
    exact ⟨more, by rw [fetchCells, hm]; exact decode_append more ho⟩
  · rintro ⟨rest, hd⟩
    exact ⟨_, rest, cellsAt_window s.mem s.pc longestInstr, hd⟩

/-- At most one instruction stands at `pc`. -/
theorem instrAt_unique {s : State} {i j : Instr} (hi : InstrAt s i) (hj : InstrAt s j) : i = j := by
  obtain ⟨r, hr⟩ := (instrAt_iff ..).1 hi
  obtain ⟨r', hr'⟩ := (instrAt_iff ..).1 hj
  rw [hr] at hr'
  cases hr'
  rfl

/-- The word at `pc` of an instruction. -/
theorem instrAt_word {s : State} {i : Instr} (h : InstrAt s i) :
    ∃ w, s.mem.read s.pc = some w ∧ 0 ≤ w ∧ w.toNat % 100 = i.opcode.number := by
  obtain ⟨cells, rest, hc, hd⟩ := h
  obtain ⟨w, raws, rfl, h0, hn, -⟩ := (decode_ok_iff ..).1 hd
  exact ⟨w, cellsAt_head hc, h0, hn⟩

theorem haltWordAt_of_instrAt {s : State} (h : InstrAt s .halt) : HaltWordAt s := by
  obtain ⟨w, hr, h0, hn⟩ := instrAt_word h
  refine ⟨w, hr, h0, ?_⟩
  simp only [Instr.opcode, Opcode.number] at hn
  omega

theorem instrAt_halt_iff (s : State) : InstrAt s .halt ↔ HaltWordAt s := by
  refine ⟨haltWordAt_of_instrAt, ?_⟩
  rintro ⟨w, hr, h0, hn⟩
  refine ⟨[w], [], ?_, (decode_ok_iff ..).2 ⟨w, [], rfl, h0, ?_, rfl, rfl⟩⟩
  · intro k hk
    have : k = 0 := by simpa using hk
    subst this
    simpa using hr
  · simp only [Instr.opcode, Opcode.number]
    omega

/-! ## The self-test check -/

theorem selfTestError_eq_none_iff (s : State) : selfTestError s = none ↔ SelfTestPasses s := by
  unfold selfTestError SelfTestPasses
  cases s.lastOutput with
  | none => simp
  | some v =>
    by_cases hc : s.config.selfTest = true <;> by_cases hv : v = 0 <;> simp [hc, hv]

theorem selfTestError_eq_some_iff (s : State) (e : ErrorRecord) :
    selfTestError s = some e ↔
      ∃ v, s.config.selfTest = true ∧ s.lastOutput = some v ∧ v ≠ 0 ∧ e = .selfTestFailure s.pc s.lastOp v := by
  unfold selfTestError
  cases s.lastOutput with
  | none => simp
  | some v =>
    by_cases hc : s.config.selfTest = true <;> by_cases hv : v = 0 <;> simp [hc, hv, eq_comm]

theorem afterSelfTest_ok_iff (s : State) (r : Except ErrorRecord Instr) (i : Instr) :
    afterSelfTest s r = .ok i ↔ SelfTestPasses s ∧ r = .ok i := by
  rw [← selfTestError_eq_none_iff]
  unfold afterSelfTest
  cases selfTestError s <;> simp

theorem afterSelfTest_error_iff (s : State) (r : Except ErrorRecord Instr) (e : ErrorRecord) :
    afterSelfTest s r = .error e ↔ selfTestError s = some e ∨ (SelfTestPasses s ∧ r = .error e) := by
  rw [← selfTestError_eq_none_iff]
  unfold afterSelfTest
  cases selfTestError s <;> simp

/-! ## The fetch -/

/-- A step executes `i` exactly when `i` stands at `pc` and, but for halt, the self-test check passes. -/
theorem fetchInstr_ok_iff (s : State) (i : Instr) :
    fetchInstr s = .ok i ↔ InstrAt s i ∧ (i = .halt ∨ SelfTestPasses s) := by
  rw [instrAt_iff]
  unfold fetchInstr
  cases hd : decode (fetchCells s) with
  | error e => cases e <;> simp [afterSelfTest_ok_iff]
  | ok r =>
    obtain ⟨j, rest⟩ := r
    by_cases hj : j = .halt
    · subst hj
      simp only [if_true, Except.ok.injEq, Prod.mk.injEq]
      constructor
      · rintro rfl; exact ⟨⟨rest, rfl, rfl⟩, .inl rfl⟩
      · rintro ⟨⟨-, rfl, -⟩, -⟩; rfl
    · simp only [hj, if_false, afterSelfTest_ok_iff, Except.ok.injEq, Prod.mk.injEq]
      constructor
      · rintro ⟨hp, rfl⟩; exact ⟨⟨rest, rfl, rfl⟩, .inr hp⟩
      · rintro ⟨⟨-, rfl, -⟩, h | h⟩
        · exact absurd h hj
        · exact ⟨h, rfl⟩

theorem fetchCells_nil_iff (s : State) : fetchCells s = [] ↔ (s.pc < 0 ∨ (s.mem.len : Int) ≤ s.pc) := by
  rw [← Memory.read_eq_none_iff, fetchCells, longestInstr, Memory.window]
  cases s.mem.read s.pc <;> simp

/-- The cells fetched start with the word at `pc`. -/
theorem fetchCells_cons {s : State} {w : Int} (h : s.mem.read s.pc = some w) :
    fetchCells s = w :: s.mem.window (s.pc + 1) 3 := by
  rw [fetchCells, longestInstr, Memory.window, h]

theorem read_of_fetchCells_cons {s : State} {w : Int} {cs : List Int} (h : fetchCells s = w :: cs) :
    s.mem.read s.pc = some w ∧ cs = s.mem.window (s.pc + 1) 3 := by
  rw [fetchCells, longestInstr, Memory.window] at h
  cases hr : s.mem.read s.pc with
  | none => simp [hr] at h
  | some v => simp only [hr, List.cons.injEq] at h; exact ⟨by rw [h.1], h.2.symm⟩

/-- The errors a step raises before it executes, in the order of R162 up to the parameter fetch. -/
inductive FetchError (s : State) : ErrorRecord → Prop where
  | outside (h : s.pc < 0 ∨ (s.mem.len : Int) ≤ s.pc) : FetchError s (.addressOutOfBounds (.at s.pc) none .fetch none s.pc)
  | negative {w : Int} (hr : s.mem.read s.pc = some w) (hw : w < 0) : FetchError s (.unknownOpcode s.pc none w)
  | selfTest {v : Int} (on : s.config.selfTest = true) (out : s.lastOutput = some v) (nz : v ≠ 0) (nh : ¬ HaltWordAt s) :
      FetchError s (.selfTestFailure s.pc s.lastOp v)
  | unknown {w : Int} (hr : s.mem.read s.pc = some w) (h0 : 0 ≤ w) (hn : Opcode.ofNumber (w.toNat % 100) = none) :
      FetchError s (.unknownOpcode s.pc (some (w.toNat % 100)) w)
  | missing {w : Int} {op : Opcode} {k : Nat} (hr : s.mem.read s.pc = some w) (h0 : 0 ≤ w) (hn : w.toNat % 100 = op.number)
      (h1 : 1 ≤ k) (hk : k ≤ op.paramCount) (end_ : s.pc + (k : Int) = (s.mem.len : Int)) :
      FetchError s (.addressOutOfBounds (.at s.pc) (some op) .fetch (some k) (s.pc + (k : Int)))

theorem ofNumber_of_haltWord {s : State} {w : Int} (hr : s.mem.read s.pc = some w) (h : HaltWordAt s) :
    w.toNat % 100 = Opcode.number .halt := by
  obtain ⟨w', hr', h0, hn⟩ := h
  rw [hr] at hr'
  cases hr'
  simp only [Opcode.number]
  omega

theorem fetchInstr_error_cases {s : State} {e : ErrorRecord} (h : fetchInstr s = .error e) : FetchError s e := by
  have self : (¬ HaltWordAt s) → selfTestError s = some e → FetchError s e := by
    intro nh he
    obtain ⟨v, hc, ho, hv, rfl⟩ := (selfTestError_eq_some_iff s e).1 he
    exact .selfTest hc ho hv nh
  unfold fetchInstr at h
  cases hd : decode (fetchCells s) with
  | ok r =>
    obtain ⟨i, rest⟩ := r
    simp only [hd] at h
    split at h
    · cases h
    · next hi =>
      obtain he | ⟨-, he⟩ := (afterSelfTest_error_iff s _ e).1 h
      · refine self (fun hw => hi ?_) he
        exact instrAt_unique ((instrAt_iff ..).2 ⟨rest, hd⟩) ((instrAt_halt_iff s).2 hw)
      · cases he
  | error d =>
    simp only [hd] at h
    obtain ⟨hc, rfl⟩ | ⟨w, cs, hc, ⟨hw, rfl⟩ | ⟨h0, hn, rfl⟩ | ⟨op, h0, hn, hl, rfl⟩⟩ := (decode_error_iff ..).1 hd
    · cases h
      exact .outside ((fetchCells_nil_iff s).1 hc)
    · cases h
      exact .negative (read_of_fetchCells_cons hc).1 hw
    · have hr := (read_of_fetchCells_cons hc).1
      obtain he | ⟨-, he⟩ := (afterSelfTest_error_iff s _ e).1 h
      · refine self (fun hh => ?_) he
        rw [ofNumber_of_haltWord hr hh, Opcode.ofNumber_number] at hn
        cases hn
      · cases he
        exact .unknown hr h0 hn
    · obtain ⟨hr, rfl⟩ := read_of_fetchCells_cons hc
      obtain he | ⟨-, he⟩ := (afterSelfTest_error_iff s _ e).1 h
      · refine self (fun hh => ?_) he
        have h1 := ofNumber_of_haltWord hr hh
        rw [hn] at h1
        have : op = .halt := by
          have h2 := Opcode.ofNumber_number op
          rw [h1, Opcode.ofNumber_number] at h2
          exact (Option.some.inj h2).symm
        subst this
        simp [Opcode.paramCount] at hl
      · cases he
        have hle := paramCount_le op
        simp only [longestInstr] at hle
        have hend := s.mem.window_end (s.pc + 1) 3 (by omega)
        have hin := ((s.mem.read_eq_some_iff _ _).1 hr).1
        have hpos : s.pc + 1 + ((s.mem.window (s.pc + 1) 3).length : Int) ≤ (s.mem.len : Int) := by
          by_cases hz : (s.mem.window (s.pc + 1) 3).length = 0
          · rw [hz]; omega
          · have := s.mem.read_window (s.pc + 1) 3 ((s.mem.window (s.pc + 1) 3).length - 1) (by omega)
            have := ((s.mem.read_eq_some_iff _ _).1 this).1
            omega
        have := (s.mem.read_eq_none_iff _).1 hend
        refine .missing hr h0 hn (by omega) (by omega) ?_
        push_cast
        omega

/-! ## The step -/

/-- What a step can do: execute the instruction at `pc`, or raise an error of the fetch. -/
theorem step_cases {s t : State} (h : step s = .next t) :
    s.status = .running ∧
      ((∃ i, InstrAt s i ∧ (i = .halt ∨ SelfTestPasses s) ∧ exec i s = .next t) ∨
       (∃ e, FetchError s e ∧ t = raiseError e s)) := by
  unfold step at h
  cases hs : s.status with
  | ready => simp [hs] at h
  | halted => simp [hs] at h
  | faulted => simp [hs] at h
  | running =>
    simp only [hs] at h
    refine ⟨rfl, ?_⟩
    cases hf : fetchInstr s with
    | ok i =>
      simp only [hf] at h
      obtain ⟨hi, hp⟩ := (fetchInstr_ok_iff s i).1 hf
      exact .inl ⟨i, hi, hp, h⟩
    | error e =>
      simp only [hf] at h
      exact .inr ⟨e, fetchInstr_error_cases hf, (Host.Outcome.next.inj h).symm⟩

theorem step_of_fetch_ok {s : State} {i : Instr} (hs : s.status = .running) (h : fetchInstr s = .ok i) : step s = exec i s := by
  simp only [step, hs, h]

theorem step_of_fetch_error {s : State} {e : ErrorRecord} (hs : s.status = .running) (h : fetchInstr s = .error e) :
    step s = .next (raiseError e s) := by
  simp only [step, hs, h]

/-- The four ways a step of a running machine ends: halted, completed, an operand's error, an error of the fetch. -/
theorem steps_cases {s t : State} (h : Steps s t) :
    (InstrAt s .halt ∧ t = s.setStatus .halted) ∨
    (∃ i s', InstrAt s i ∧ i ≠ .halt ∧ SelfTestPasses s ∧ Effect i s s' ∧ t = complete i.opcode s.pc s') ∨
    (∃ i e, InstrAt s i ∧ i ≠ .halt ∧ SelfTestPasses s ∧ OperandError i s e ∧ t = raiseError e s) ∨
    (∃ e, FetchError s e ∧ t = raiseError e s) := by
  obtain ⟨-, ⟨i, hi, hp, hx⟩ | ⟨e, he, rfl⟩⟩ := step_cases h.2
  · obtain ⟨rfl, rfl⟩ | ⟨hn, s', he, rfl⟩ | ⟨hn, e, he, rfl⟩ := exec_cases hx
    · exact .inl ⟨hi, rfl⟩
    · exact .inr (.inl ⟨i, s', hi, hn, hp.resolve_left hn, he, rfl⟩)
    · exact .inr (.inr (.inl ⟨i, e, hi, hn, hp.resolve_left hn, he, rfl⟩))
  · exact .inr (.inr (.inr ⟨e, he, rfl⟩))

/-! ## The loop -/

theorem runLoop_of_not_running {s : State} (h : s.status ≠ .running) (k : Nat) : runLoop k s = some s := by
  cases k <;> simp [runLoop, h]

theorem runLoop_of_steps {s t : State} (h : Steps s t) (k : Nat) : runLoop (k + 1) s = runLoop k t := by
  simp [runLoop, h.1, h.2]

theorem reaches_of_steps {s t u : State} (h : Steps s t) (r : Reaches t u) : Reaches s u := by
  induction r with
  | refl => exact .tail (.refl s) h
  | tail _ last ih => exact .tail ih last

end Sys2Proof.Machine
end

