-- ==== Sys2Proof/Tests/Slice0.lean ====
section
/-! SUPPORT. The model's own tests: WellFormed refuses, words written out from the spec's encodings decode, single steps give what 95_test_vectors.md gives, and
every statement's hypotheses are met by a concrete state, clause by clause. -/

namespace Sys2Proof.Tests

open Sys2Proof Sys2Proof.Machine Sys2Proof.Safety

/-- A machine of a program, in Running, under given parameters. -/
def machineOf (c : Config) (p : List Int) : State := { State.constructed c p with status := .running }

/-- The same under the default parameters. -/
def machine (p : List Int) : State := machineOf Config.default p

def bits (n : Nat) : Config := { Config.default with wordBits := some n }
def selfTesting : Config := { Config.default with selfTest := true }

/-- The state a step gives, if it gives one. -/
def after (s : State) : Option State :=
  match step s with
  | .next t => some t
  | .fault _ => none
  | .refused _ => none

/-- Its memory and `pc`. -/
def memPc (s : State) : Option (List Int × Int) := (after s).map fun t => (t.mem.toList, t.pc)

/-- Its status, error and `pc`. -/
def endOf (s : State) : Option (Status × Option ErrorRecord × Int) := (after s).map fun t => (t.status, t.error, t.pc)

def dir (n : Int) : Param := ⟨.direct, n⟩
def imm (n : Int) : Param := ⟨.immediate, n⟩
def bad (d : Nat) (n : Int) : Param := ⟨.other d, n⟩

/-! ## WellFormed -/

theorem test_wf_refuses_mode_one_spelled_other : (Instr.out (bad 1 0)).wf = false := by decide
theorem test_wf_refuses_mode_zero_spelled_other : (Instr.jumpIfTrue (imm 0) (bad 0 0)).wf = false := by decide
theorem test_wf_refuses_a_mode_above_nine : (Instr.store (bad 10 0)).wf = false := by decide
theorem test_wf_refuses_slot1 : (Instr.add (bad 10 0) (dir 0) (dir 0)).wf = false := by decide
theorem test_wf_refuses_slot2 : (Instr.mul (dir 0) (bad 10 0) (dir 0)).wf = false := by decide
theorem test_wf_refuses_slot3 : (Instr.lessThan (dir 0) (dir 0) (bad 10 0)).wf = false := by decide
theorem test_wf_accepts_modes_two_and_nine : (Instr.equals (bad 2 0) (bad 9 0) (dir 0)).wf = true := by decide

/-! ## Decode: words written out digit by digit from R61, R62, R66 -/

theorem test_decode_add : decode [1101, -3, 1, 5] = .ok (.add (imm (-3)) (imm 1) (dir 5), []) := by decide
theorem test_decode_mul_R73 : decode [1002, 4, 3, 4, 33] = .ok (.mul (dir 4) (imm 3) (dir 4), [33]) := by decide
theorem test_decode_store : decode [3, 9] = .ok (.store (dir 9), []) := by decide
theorem test_decode_store_immediate : decode [103, 0] = .ok (.store (imm 0), []) := by decide
theorem test_decode_out : decode [104, -5] = .ok (.out (imm (-5)), []) := by decide
theorem test_decode_jumpIfTrue : decode [2105, 1, 0] = .ok (.jumpIfTrue (imm 1) (bad 2 0), []) := by decide
theorem test_decode_jumpIfFalse : decode [1006, 17, 13] = .ok (.jumpIfFalse (dir 17) (imm 13), []) := by decide
theorem test_decode_lessThan : decode [107, -3, 2, 9] = .ok (.lessThan (imm (-3)) (dir 2) (dir 9), []) := by decide
theorem test_decode_equals : decode [8, 9, 10, 9] = .ok (.equals (dir 9) (dir 10) (dir 9), []) := by decide
theorem test_decode_slot3 : decode [90001, 0, 0, 7] = .ok (.add (dir 0) (dir 0) (bad 9 7), []) := by decide
theorem test_decode_halt_ignores_digits : decode [10099] = .ok (.halt, []) := by decide
theorem test_decode_ignores_digit_five : decode [100001, 0, 0, 0] = .ok (.add (dir 0) (dir 0) (dir 0), []) := by decide
theorem test_decode_negative_is_no_halt : decode [-1] = .error (.negativeWord (-1)) := by decide
theorem test_decode_opcode_zero : decode [100] = .error (.unknownOpcode 0 100) := by decide
theorem test_decode_opcode_nine : decode [9] = .error (.unknownOpcode 9 9) := by decide
theorem test_decode_opcode_98 : decode [98] = .error (.unknownOpcode 98 98) := by decide
theorem test_decode_missing_slot : decode [1105, 1] = .error (.missingParameter .jumpIfTrue 2) := by decide
theorem test_encode_mul : encode (.mul (dir 4) (imm 3) (dir 4)) = [1002, 4, 3, 4] := by decide

/-! ## Single steps (95_test_vectors.md; the vector is named) -/

theorem test_add_A1 : memPc (machine [1101, -3, 1, 5, 99, 0]) = some ([1101, -3, 1, 5, 99, -2], 4) := by decide
theorem test_add_A4_own_cell : memPc (machine [1101, 5, 5, 3, 99]) = some ([1101, 5, 5, 10, 99], 4) := by decide
theorem test_mul_M4 : memPc (machine [2, 3, 0, 3, 99]) = some ([2, 3, 0, 6, 99], 4) := by decide
theorem test_mul_M7_exact : memPc (machine [1102, 10 ^ 20, 10 ^ 20, 5, 99, 0]) = some ([1102, 10 ^ 20, 10 ^ 20, 5, 99, 10 ^ 40], 4) := by decide
theorem test_store_I1_default_input : memPc (machine [3, 0, 99]) = some ([1, 0, 99], 2) := by decide
theorem test_store_I3_overflow : endOf { machineOf (bits 8) [3, 0, 99] with pendingInput := 200 } =
    some (.faulted, some (.wordOverflow 0 .store 200), 0) := by decide
theorem test_out_U1 : (after (machine [104, -5, 99])).map (fun t => (t.lastOutput, t.pc)) = some (some (-5), 2) := by decide
theorem test_jumpIfTrue_J5_own_address : memPc (machine [1105, 1, 0, 99]) = some ([1105, 1, 0, 99], 3) := by decide
theorem test_jumpIfTrue_J4_negative_target : memPc (machine [1105, 1, -1]) = some ([1105, 1, -1], -1) := by decide
theorem test_jumpIfFalse_J7_negative_is_true : memPc (machine [1106, -1, 5, 99, 0, 50]) = some ([1106, -1, 5, 99, 0, 50], 3) := by decide
theorem test_jumpIfFalse_J9_unresolved_slot : endOf (machine [2006, 1, 0, 99]) = some (.running, none, 3) := by decide
theorem test_lessThan_C1_signed : memPc (machine [1107, -5, 3, 5, 99, 7]) = some ([1107, -5, 3, 5, 99, 1], 4) := by decide
theorem test_lessThan_C2_equal : memPc (machine [1107, 3, 3, 5, 99, 7]) = some ([1107, 3, 3, 5, 99, 0], 4) := by decide
theorem test_equals_C6_own_word : memPc (machine [1108, 5, 5, 0, 99]) = some ([1, 5, 5, 0, 99], 4) := by decide
theorem test_equals_C4 : memPc (machine [1108, -8, 8, 5, 99, 7]) = some ([1108, -8, 8, 5, 99, 0], 4) := by decide
theorem test_halt_D1 : endOf (machine [199]) = some (.halted, none, 0) := by decide
theorem test_error_D11_empty : endOf (machine []) = some (.faulted, some (.addressOutOfBounds (.at 0) none .fetch none 0), 0) := by decide
theorem test_error_D12_missing_cell : endOf (machine [1, 0, 0]) =
    some (.faulted, some (.addressOutOfBounds (.at 0) (some .add) .fetch (some 3) 3), 0) := by decide
theorem test_error_O2_destination_mode : endOf (machine [20001, 0, 0, 0, 99]) =
    some (.faulted, some (.unknownParameterMode 0 .add 3 2), 0) := by decide
theorem test_error_O3_first_slot_wins : endOf (machine [11201, 0, 0, 0, 99]) =
    some (.faulted, some (.unknownParameterMode 0 .add 1 2), 0) := by decide
theorem test_error_S7_immediate_destination : endOf (machine [11101, 1, 1, 0, 99]) =
    some (.faulted, some (.invalidWriteMode 0 .add 3 0), 0) := by decide
theorem test_error_S8_write_outside : endOf (machine [1101, 1, 1, 9, 99]) =
    some (.faulted, some (.addressOutOfBounds (.at 0) (some .add) .write (some 3) 9), 0) := by decide
theorem test_selfTest_T3 : endOf { machineOf selfTesting [104, 1, 50] with pc := 2, lastOutput := some 1, lastOp := some .out } =
    some (.faulted, some (.selfTestFailure 2 (some .out) 1), 2) := by decide
theorem test_selfTest_T1_halt_passes : endOf { machineOf selfTesting [104, 5, 99] with pc := 2, lastOutput := some 5, lastOp := some .out } =
    some (.halted, none, 2) := by decide
theorem test_width_W2 : endOf (machineOf (bits 64) [1101, 2 ^ 62, 2 ^ 62, 5, 99, 0]) =
    some (.faulted, some (.wordOverflow 0 .add (2 ^ 63)), 0) := by decide
theorem test_width_W3 : memPc (machineOf (bits 64) [1101, 2 ^ 62 - 1, 2 ^ 62, 5, 99, 0]) =
    some ([1101, 2 ^ 62 - 1, 2 ^ 62, 5, 99, 2 ^ 63 - 1], 4) := by decide

/-! ## The host's interactions and the assembler -/

theorem test_entry_E1 : (enterRun (some 3) (some 4) none (State.constructed Config.default [1, 0, 0, 0, 99])).mem.toList = [1, 3, 4, 0, 99] := by decide
theorem test_entry_E4 : (fun t => (t.mem.toList, t.error)) (enterRun (some 7) (some 0) none (State.constructed Config.default [99, 0])) =
    ([99, 7], some (.addressOutOfBounds .runEntry none .write none 2)) := by decide
theorem test_output_zero_is_set : output { machine [7] with status := .halted, lastOutput := some 0 } = .ok 0 := by decide
theorem test_output_fallback : output { machine [7] with status := .halted } = .ok 7 := by decide
theorem test_error_code_and_name : (fun e => (ErrorRecord.code e, ErrorRecord.name e)) (.unknownParameterMode 0 .add 1 2) = (4, "UnknownParameterMode") := by decide
theorem test_assemble_P3 :
    assemble [.add (.immediate (.lit 2)) (.immediate (.lit 97)) (.direct (.label 7)), .label 7, .word 0] = some [1101, 2, 97, 4, 0] := by decide
theorem test_assemble_refuses_immediate_destination : assemble [.store (.immediate (.lit 0))] = none := by decide
theorem test_placed_word_is_a_loaded_program :
    State.reset.withFetchWord 32 1002 = enterRun none none none (State.constructed Config.default [1002, 0, 0, 0]) := by decide

/-! ## Witnesses: the statements' hypotheses are met

`add8` has 8 and 7 in cells 4 and 5 and a free cell 6. -/

def add8 : State := machine [1, 4, 5, 6, 8, 7, 0]

theorem witness_DecodeReturnsTheEncodedInstruction : (Instr.add (bad 9 (-1)) (imm 5) (dir 0)).wf = true := by decide
theorem witness_DecodedCells_and_DigitsAbove : (0 : Int) ≤ 7 ∧ decode [1234501, -1, 2, 3] = .ok (.add (bad 5 (-1)) (bad 4 2) (bad 3 3), []) := by decide
theorem witness_EveryWordHasOneDecodeOutcome :
    (-1 : Int) < 0 ∧ (¬ (1 ≤ (100 : Int) % 100 ∧ (100 : Int) % 100 ≤ 8 ∨ (100 : Int) % 100 = 99)) ∧
    (¬ (1 ≤ (9 : Int) % 100 ∧ (9 : Int) % 100 ≤ 8 ∨ (9 : Int) % 100 = 99)) ∧ (¬ (1 ≤ (98 : Int) % 100 ∧ (98 : Int) % 100 ≤ 8 ∨ (98 : Int) % 100 = 99)) ∧
    (1 ≤ (8 : Int) % 100 ∧ (8 : Int) % 100 ≤ 8 ∨ (8 : Int) % 100 = 99) ∧ (1 ≤ (99 : Int) % 100 ∧ (99 : Int) % 100 ≤ 8 ∨ (99 : Int) % 100 = 99) ∧
    3 ≤ ([0, 0, 0] : List Int).length := by decide

theorem add8_instr : InstrAt add8 (.add (dir 4) (dir 5) (dir 6)) := (instrAt_iff ..).2 ⟨[], by decide⟩
theorem selfTest_off {s : State} (h : s.config.selfTest = false) : SelfTestPasses s := fun hc => by rw [h] at hc; cases hc

theorem witness_StepRunsTheDecodedInstruction :
    add8.status = .running ∧ InstrAt add8 (.add (dir 4) (dir 5) (dir 6)) ∧ SelfTestPasses add8 :=
  ⟨rfl, add8_instr, selfTest_off rfl⟩
theorem witness_FetchOutsideMemoryRaises :
    (machine []).status = .running ∧ ((machine []).mem.len : Int) ≤ (machine []).pc ∧ { add8 with pc := -1 }.pc < 0 := by decide
theorem witness_NegativeWordRaisesUnknownOpcode :
    (machine [-1]).status = .running ∧ (machine [-1]).mem.read (machine [-1]).pc = some (-1) ∧ (-1 : Int) < 0 := by decide
theorem witness_Dispatch_halt : (machine [99]).mem.read 0 = some 99 ∧ (99 : Int) % 100 = 99 := by decide
theorem witness_Dispatch_selfTest : (fun s : State => (s.status, s.mem.read s.pc, s.config.selfTest, s.lastOutput))
    { machineOf selfTesting [50] with lastOutput := some (-1) } = (.running, some 50, true, some (-1)) := by decide
theorem witness_Dispatch_unknown : (machine [9]).mem.read 0 = some 9 ∧ ¬ (1 ≤ (9 : Int) % 100 ∧ (9 : Int) % 100 ≤ 8) ∧ SelfTestPasses (machine [9]) :=
  ⟨by decide, by decide, selfTest_off rfl⟩
theorem witness_Dispatch_known : (machine [8, 0, 0, 0]).mem.read 0 = some 8 ∧ (machine [8, 0, 0, 0]).pc + 3 < ((machine [8, 0, 0, 0]).mem.len : Int) ∧
    SelfTestPasses (machine [8, 0, 0, 0]) := ⟨by decide, by decide, selfTest_off rfl⟩
theorem witness_MissingParameterCell_last : (machine [1, 0, 0]).mem.read 0 = some 1 ∧ (3 : Nat) ≤ Opcode.paramCount .add ∧
    (machine [1, 0, 0]).pc + 3 = ((machine [1, 0, 0]).mem.len : Int) ∧ SelfTestPasses (machine [1, 0, 0]) :=
  ⟨by decide, by decide, by decide, selfTest_off rfl⟩
theorem witness_MissingParameterCell_first : (machine [4]).mem.read 0 = some 4 ∧ (1 : Nat) ≤ Opcode.paramCount .out ∧
    (machine [4]).pc + 1 = ((machine [4]).mem.len : Int) ∧ SelfTestPasses (machine [4]) :=
  ⟨by decide, by decide, by decide, selfTest_off rfl⟩

/-- The completion clause of the four three-slot rules, with a direct and an immediate operand; 0 and the last cell are the destination's bounds. -/
theorem witness_ThreeSlot_completes : Reads add8 (dir 4) 8 ∧ Reads add8 (imm (-3)) (-3) ∧ InRange add8.config (8 + -3) ∧ InRange add8.config (8 * -3) ∧
    Writable add8 (dir 0) ∧ Writable add8 (dir 6) :=
  ⟨.inr ⟨rfl, by decide⟩, .inl ⟨rfl, rfl⟩, nofun, nofun, ⟨rfl, by decide, by decide⟩, ⟨rfl, by decide, by decide⟩⟩
/-- The traps of a read slot: a mode, an address below and one at the end of memory. -/
theorem witness_ReadTraps (op : Opcode) (k : Nat) :
    ReadTrap add8 op k (bad 2 0) (.unknownParameterMode 0 op k 2) ∧
    ReadTrap add8 op k (dir (-1)) (.addressOutOfBounds (.at 0) (some op) .read (some k) (-1)) ∧
    ReadTrap add8 op k (dir 7) (.addressOutOfBounds (.at 0) (some op) .read (some k) 7) :=
  ⟨.inl ⟨2, rfl, rfl⟩, .inr ⟨rfl, by decide, rfl⟩, .inr ⟨rfl, by decide, rfl⟩⟩
/-- The traps of a destination: immediate, a mode, an address below and one at the end of memory. -/
theorem witness_WriteTraps (op : Opcode) (k : Nat) :
    WriteTrap add8 op k (imm 3) (.invalidWriteMode 0 op k 3) ∧
    WriteTrap add8 op k (bad 9 0) (.unknownParameterMode 0 op k 9) ∧
    WriteTrap add8 op k (dir (-1)) (.addressOutOfBounds (.at 0) (some op) .write (some k) (-1)) ∧
    WriteTrap add8 op k (dir 7) (.addressOutOfBounds (.at 0) (some op) .write (some k) 7) :=
  ⟨.inl ⟨rfl, rfl⟩, .inr (.inl ⟨9, rfl, rfl⟩), .inr (.inr ⟨rfl, by decide, rfl⟩), .inr (.inr ⟨rfl, by decide, rfl⟩)⟩
/-- The overflow clause of add and mul at eight bits: 128 is the first value above the range and -128 the last one in it. -/
theorem witness_ThreeSlot_overflow : ¬ InRange (bits 8) (64 + 64) ∧ ¬ InRange (bits 8) (64 * 2) ∧ InRange (bits 8) (-64 + -64) ∧
    Reads (machineOf (bits 8) []) (imm 64) 64 := by
  refine ⟨fun h => ?_, fun h => ?_, fun n h => ?_, .inl ⟨rfl, rfl⟩⟩
  · exact absurd (h 8 rfl).2 (by decide)
  · exact absurd (h 8 rfl).2 (by decide)
  · cases h; decide
theorem witness_Encodings : (0 : Int) ≤ 99901 ∧ (99901 : Int) % 100 = 1 ∧ (0 : Int) ≤ 8 ∧ (8 : Int) % 100 = 8 ∧ (0 : Int) ≤ 199 ∧ (199 : Int) % 100 = 99 := by decide
theorem witness_Store_completes : InRange add8.config add8.pendingInput ∧ Writable add8 (dir 6) := ⟨nofun, rfl, by decide, by decide⟩
theorem witness_Store_overflow : ¬ InRange (bits 8) { machineOf (bits 8) [] with pendingInput := 128 }.pendingInput :=
  fun h => absurd (h 8 rfl).2 (by decide)
theorem witness_Jump_taken : Reads add8 (imm (-1)) (-1) ∧ (-1 : Int) ≠ 0 ∧ Reads add8 (dir 4) 8 ∧ (8 : Int) ≠ add8.pc ∧ Reads add8 (imm 0) 0 ∧ Reads add8 (imm 0) add8.pc :=
  ⟨.inl ⟨rfl, rfl⟩, by decide, .inr ⟨rfl, by decide⟩, by decide, .inl ⟨rfl, rfl⟩, .inl ⟨rfl, rfl⟩⟩
theorem witness_HaltWordAt : HaltWordAt (machine [199]) ∧ (machine [199]).status = .running ∧ { machine [199] with status := .halted }.status = .halted :=
  ⟨⟨199, by decide, by decide, by decide⟩, rfl, rfl⟩
theorem witness_Frames (a b d : Param) (s : State) :
    (∃ t, exec (.add a b d) s = .next t) ∧ (∃ t, exec (.mul a b d) s = .next t) ∧ (∃ t, exec (.lessThan a b d) s = .next t) ∧
    (∃ t, exec (.equals a b d) s = .next t) ∧ (∃ t, exec (.store d) s = .next t) ∧ (∃ t, exec (.out a) s = .next t) ∧
    (∃ t, exec (.jumpIfTrue a b) s = .next t) ∧ (∃ t, exec (.jumpIfFalse a b) s = .next t) ∧ ∃ t, exec .halt s = .next t :=
  ⟨exec_is_next .., exec_is_next .., exec_is_next .., exec_is_next .., exec_is_next .., exec_is_next .., exec_is_next .., exec_is_next .., exec_is_next ..⟩

/-- Steps that complete, with a changed cell and `LAST_OP` set. -/
theorem witness_Steps_completed : ∃ t, Steps add8 t ∧ t.status = .running ∧ t.mem.read 6 ≠ add8.mem.read 6 :=
  ⟨{ add8 with mem := add8.mem.put 6 15, pc := 4, lastOp := some .add }, ⟨rfl, by rfl⟩, rfl, by decide⟩
/-- A step that changes the last output. -/
theorem witness_Steps_output : ∃ t, Steps (machine [104, -5, 99]) t ∧ t.lastOutput ≠ (machine [104, -5, 99]).lastOutput :=
  ⟨{ machine [104, -5, 99] with lastOutput := some (-5), pc := 2, lastOp := some .out }, ⟨rfl, by rfl⟩, by decide⟩
/-- A step that raises: of the fetch, of an operand, of the destination, of the width. -/
theorem witness_Steps_faulted :
    Steps (machine [50]) (faultedWith (machine [50]) (.unknownOpcode 0 (some 50) 50)) ∧
    Steps (machine [4, 9]) (faultedWith (machine [4, 9]) (.addressOutOfBounds (.at 0) (some .out) .read (some 1) 9)) ∧
    Steps (machine [103, 0]) (faultedWith (machine [103, 0]) (.invalidWriteMode 0 .store 1 0)) ∧
    Steps (machine [204, 0]) (faultedWith (machine [204, 0]) (.unknownParameterMode 0 .out 1 2)) ∧
    Steps (machineOf (bits 1) [1101, 1, 1, 0]) (faultedWith (machineOf (bits 1) [1101, 1, 1, 0]) (.wordOverflow 0 .add 2)) :=
  ⟨⟨rfl, by rfl⟩, ⟨rfl, by rfl⟩, ⟨rfl, by rfl⟩, ⟨rfl, by rfl⟩, ⟨rfl, by rfl⟩⟩
/-- The records of O24's clauses: a sum out of range of the add at `pc`, and the missing cell of the word at `pc`, first and last slot. -/
theorem witness_ErrorRecords : InstrAt (machineOf (bits 1) [1101, 1, 1, 0]) (.add (imm 1) (imm 1) (dir 0)) ∧
    CheckedValue (.add (imm 1) (imm 1) (dir 0)) (machineOf (bits 1) [1101, 1, 1, 0]) 2 ∧
    Steps (machine [8, 0, 0]) (faultedWith (machine [8, 0, 0]) (.addressOutOfBounds (.at 0) (some .equals) .fetch (some 3) 3)) ∧
    Steps (machine [3]) (faultedWith (machine [3]) (.addressOutOfBounds (.at 0) (some .store) .fetch (some 1) 1)) :=
  ⟨(instrAt_iff ..).2 ⟨[], by decide⟩, ⟨1, 1, .inl ⟨rfl, rfl⟩, .inl ⟨rfl, rfl⟩, rfl⟩, ⟨rfl, by rfl⟩, ⟨rfl, by rfl⟩⟩
/-- A step that halts. -/
theorem witness_Steps_halted : Steps (machine [99]) { machine [99] with status := .halted } := ⟨rfl, by rfl⟩
theorem witness_PcAfterACompletedStep : ∃ t, Steps add8 t ∧ InstrAt add8 (.add (dir 4) (dir 5) (dir 6)) ∧ t.status ≠ .faulted :=
  ⟨{ add8 with mem := add8.mem.put 6 15, pc := 4, lastOp := some .add }, ⟨rfl, by rfl⟩, add8_instr, by decide⟩
theorem witness_NoStepOutsideRunning : State.reset.status = .ready ∧ { add8 with status := .halted }.status = .halted ∧
    (faultedWith add8 (.unknownOpcode 0 none (-1))).status = .faulted := ⟨rfl, rfl, rfl⟩

/-- A state with a pending self-test failure that meets the invariant. -/
def failing : State := { machineOf selfTesting [104, 1, 50] with pc := 2, lastOutput := some 1, lastOp := some .out }

theorem failing_inv : Inv failing where
  memory := by decide
  error := by decide
  halted := nofun
  lastOp := by decide
  output := by decide
  selfTest := fun _ _ _ _ => rfl

theorem witness_SelfTestFires : failing.mem.read failing.pc = some 50 ∧ failing.config.selfTest = true ∧ failing.lastOutput = some 1 ∧ Inv failing ∧
    Steps failing (faultedWith failing (.selfTestFailure 2 (some .out) 1)) := ⟨by decide, rfl, rfl, failing_inv, rfl, by rfl⟩
theorem witness_WordOverflow : (bits 8).wordBits = some 8 ∧ (2 : Int) ^ (8 - 1) ≤ 64 + 64 ∧ (2 : Int) ^ (8 - 1) ≤ 64 * 2 ∧ -128 + -1 < -(2 : Int) ^ (8 - 1) ∧
    add8.config.wordBits = none := by decide
theorem witness_EveryStepKeepsTheInvariant : Inv failing ∧ ∃ t, step failing = .next t := ⟨failing_inv, _, rfl⟩
theorem witness_EveryStepKeepsWordsInRange :
    (machineOf (bits 2) [99]).config.wordBits ≠ some 0 ∧ (machineOf (bits 2) [99]).config.wordBits ≠ some 1 ∧
    WordsInRange (machineOf (bits 8) [104, 1, 99]) ∧ ∃ t, step (machineOf (bits 8) [104, 1, 99]) = .next t := by
  refine ⟨by decide, by decide, ⟨fun a v h n hn => ?_, nofun⟩, ⟨_, rfl⟩⟩
  cases hn
  have hb := ((Memory.read_eq_some_iff ..).1 h).1
  have hl : ((machineOf (bits 8) [104, 1, 99]).mem.len : Int) = 3 := rfl
  have : a = 0 ∨ a = 1 ∨ a = 2 := by omega
  rcases this with rfl | rfl | rfl
  · have : v = 104 := Option.some.inj (h.symm.trans (by decide))
    subst this; decide
  · have : v = 1 := Option.some.inj (h.symm.trans (by decide))
    subst this; decide
  · have : v = 99 := Option.some.inj (h.symm.trans (by decide))
    subst this; decide
theorem witness_Construction : construct Config.default [3, 0, 99] = .ok (State.constructed Config.default [3, 0, 99]) ∧
    (∀ v, v ∈ ([3, 0, 99] : List Int) → InRange Config.default v) := ⟨by decide, fun _ _ => nofun⟩
theorem witness_Entry_keeps_invariant : Inv State.reset ∧ ∃ t, runEntry none none (some 5) State.reset = .next t :=
  ⟨⟨rfl, by decide, nofun, nofun, fun _ => rfl, nofun⟩, _, rfl⟩
theorem witness_MemoryBounds : (-1 : Int) < 0 ∧ (add8.mem.len : Int) ≤ 7 ∧ (0 : Int) ≤ 0 ∧ (6 : Int) < (add8.mem.len : Int) ∧
    (6 : Int).toNat < add8.mem.toList.length := by decide
theorem witness_CanonicalMemories : (Memory.ofList [0, 5]).wf = true ∧ ((Memory.ofList [0, 0]).put 1 5).wf = true ∧
    (Memory.ofList [0, 5]).len = ((Memory.ofList [0, 0]).put 1 5).len ∧ ∀ a, (Memory.ofList [0, 5]).read a = ((Memory.ofList [0, 0]).put 1 5).read a :=
  ⟨by decide, by decide, rfl, fun _ => rfl⟩
/-- The run entry's three clauses: enough memory (three cells, the least), a noun with one cell, a verb with two. -/
theorem witness_RunEntry : (State.constructed Config.default [99, 0, 0]).status = .ready ∧ (∀ v : Int, InRange Config.default v) ∧
    1 < (State.constructed Config.default [99, 0, 0]).mem.len ∧ 2 < (State.constructed Config.default [99, 0, 0]).mem.len ∧
    (State.constructed Config.default [99]).mem.len ≤ 1 ∧ 1 < (State.constructed Config.default [99, 0]).mem.len ∧
    (State.constructed Config.default [99, 0]).mem.len ≤ 2 := ⟨rfl, fun _ => nofun, by decide, by decide, by decide, by decide, by decide⟩
theorem witness_AMachineRunsOnce : add8.status ≠ .ready := by decide
/-- A halted machine that meets the invariant. -/
theorem witness_Output : Inv { machine [99] with status := .halted } :=
  ⟨by decide, by decide, fun _ => ⟨99, by decide, by decide, by decide⟩, by decide, by decide, nofun⟩
theorem witness_Results : { machine [99] with status := .halted }.status = .halted ∧ (faultedWith add8 (.unknownOpcode 0 none (-1))).status = .faulted ∧
    State.reset.status = .ready ∧ add8.status = .running := by decide
theorem witness_RunResult : runLoop 1 (machine [99]) = some { machine [99] with status := .halted } := by decide
theorem witness_ExhaustedBudget : runLoop 1 (machine [104, 0, 99]) = none ∧ runLoop 0 (machine [99]) = none := by decide
theorem witness_ARunHasOneEnd : Reaches (machine [99]) { machine [99] with status := .halted } ∧ { machine [99] with status := .halted }.status ≠ .running :=
  ⟨.tail (.refl _) witness_Steps_halted, by decide⟩
theorem witness_ASelfModifyingWriteIsFetched :
    (machine [1101, 2, 97, 4, 0]).status = .running ∧ InstrAt (machine [1101, 2, 97, 4, 0]) (.add (imm 2) (imm 97) (dir 4)) ∧
    Reads (machine [1101, 2, 97, 4, 0]) (imm 2) 2 ∧ Reads (machine [1101, 2, 97, 4, 0]) (imm 97) 97 ∧ InRange Config.default (2 + 97) ∧
    Writable (machine [1101, 2, 97, 4, 0]) (dir 4) ∧ (dir 4).raw = (machine [1101, 2, 97, 4, 0]).pc + 4 ∧ (2 + 97 : Int) % 100 = 99 ∧
    SelfTestPasses (machine [1101, 2, 97, 4, 0]) :=
  ⟨rfl, (instrAt_iff ..).2 ⟨[], by decide⟩, .inl ⟨rfl, rfl⟩, .inl ⟨rfl, rfl⟩, nofun, ⟨rfl, by decide, by decide⟩, by decide, by decide, selfTest_off rfl⟩
theorem witness_OnlyStoreReadsThePendingInput : (Instr.out (dir 0)).opcode ≠ .store ∧ Instr.halt.opcode ≠ .store := by decide
theorem witness_NoStepReadsLastOutput : add8.config.selfTest = false ∧ ∃ t, step add8 = .next t := ⟨rfl, _, rfl⟩
theorem witness_AssembledLines : assembleLine [] (.out (.immediate (.lit 7))) = some [104, 7] ∧ (∀ n, AsmLine.out (.immediate (.lit 7)) ≠ .word n) ∧
    (∀ n, AsmLine.out (.immediate (.lit 7)) ≠ .label n) := ⟨by decide, nofun, nofun⟩
theorem witness_AListing : assemble [.label 1, .jumpIfTrue (.immediate (.lit 1)) (.immediate (.label 1))] = some [1105, 1, 0] := by decide
theorem witness_ALabel : findLabel (labelsFrom 0 ([.halt] ++ AsmLine.label 3 :: [.halt])) 3 = some 1 := by decide
theorem witness_APlacedTableWord : decodeTableWord 32 1002 = some (.mul (dir 0) (imm 0) (dir 0)) := by decide

end Sys2Proof.Tests
end

section
/-! SUPPORT. What the proofs about the state add to the laws: equality of canonical memories, the cells a load places, what an effect does to
the last output, and the relations between states that every instruction carries over. -/

namespace Sys2Proof.Machine

open Sys2Proof.Safety

/-! ## Canonical memories -/

theorem Memory.lookup_cons_self (a : Nat) (v : Int) (t : List (Nat × Int)) : Memory.lookup ((a, v) :: t) a = v := by
  simp [Memory.lookup]

theorem Memory.lookup_cons_of_ne {a b : Nat} (h : a ≠ b) (v : Int) (t : List (Nat × Int)) :
    Memory.lookup ((a, v) :: t) b = Memory.lookup t b := by
  simp [Memory.lookup, h]

/-- The first listed address of a canonical list is the lowest one that does not hold 0. -/
theorem Memory.cellsOk_head_le {len lo lo' a a' : Nat} {v v' : Int} {t t' : List (Nat × Int)}
    (h : Memory.cellsOk len lo ((a, v) :: t) = true) (h' : Memory.cellsOk len lo' ((a', v') :: t') = true)
    (heq : ∀ b < len, Memory.lookup ((a, v) :: t) b = Memory.lookup ((a', v') :: t') b) : a' ≤ a := by
  obtain ⟨-, hlt, hv, -⟩ := (Memory.cellsOk_cons ..).1 h
  obtain ⟨-, hlt', hv', ht'⟩ := (Memory.cellsOk_cons ..).1 h'
  by_contra hlow
  have hzero : Memory.lookup ((a', v') :: t') a = 0 :=
    Memory.lookup_of_lt ((Memory.cellsOk_cons ..).2 ⟨Nat.le_refl a', hlt', hv', ht'⟩) (by omega)
  exact hv (by rw [← Memory.lookup_cons_self a v t, heq a hlt, hzero])

/-- A canonical list is determined by the values it holds. -/
theorem Memory.cells_eq_of_lookup_eq {len lo : Nat} {l l' : List (Nat × Int)} (h : Memory.cellsOk len lo l = true)
    (h' : Memory.cellsOk len lo l' = true) (heq : ∀ b < len, Memory.lookup l b = Memory.lookup l' b) : l = l' := by
  induction l generalizing lo l' with
  | nil =>
    match l' with
    | [] => rfl
    | (a, v) :: t =>
      obtain ⟨-, hlt, hv, -⟩ := (Memory.cellsOk_cons ..).1 h'
      exact absurd ((heq a hlt).trans (Memory.lookup_cons_self a v t)).symm hv
  | cons c t ih =>
    obtain ⟨a, v⟩ := c
    obtain ⟨-, hlt, hv, ht⟩ := (Memory.cellsOk_cons ..).1 h
    match l' with
    | [] => exact absurd ((Memory.lookup_cons_self a v t).symm.trans (heq a hlt)) hv
    | (a', v') :: t' =>
      obtain rfl : a = a' :=
        Nat.le_antisymm (Memory.cellsOk_head_le h' h fun b hb => (heq b hb).symm) (Memory.cellsOk_head_le h h' heq)
      obtain ⟨-, -, -, ht'⟩ := (Memory.cellsOk_cons ..).1 h'
      have hvv : v = v' := by simpa only [Memory.lookup_cons_self] using heq a hlt
      have htails : ∀ b < len, Memory.lookup t b = Memory.lookup t' b := by
        intro b hb
        by_cases hab : a = b
        · subst hab
          rw [Memory.lookup_of_lt ht (Nat.lt_succ_self a), Memory.lookup_of_lt ht' (Nat.lt_succ_self a)]
        · simpa only [Memory.lookup_cons_of_ne hab] using heq b hb
      rw [hvv, ih ht ht' htails]

/-- The sequence held by the memory of a sequence is that sequence (R180, R187). -/
theorem Memory.toList_ofList (l : List Int) : (Memory.ofList l).toList = l := by
  refine List.ext_getElem (by simp [Memory.ofList]) fun k h h' => ?_
  exact Option.some.inj ((Memory.read_toList _ k h).symm.trans (Memory.read_ofList l k h'))

/-! ## Loading a table word (log 4) -/

/-- A cell of memory reads the same after memory has grown and another cell has been written. -/
theorem Memory.read_grow_put {m : Memory} {n : Nat} {a b v w : Int} (hn : m.len ≤ n) (ha : 0 ≤ a) (hb : b ≠ a)
    (h : m.read b = some w) : ({ m with len := n }.put a v).read b = some w := by
  obtain ⟨⟨h0, hlt⟩, hw⟩ := (Memory.read_eq_some_iff ..).1 h
  rw [Memory.read_put_of_ne _ _ _ _ ha hb]
  exact (Memory.read_eq_some_iff ..).2 ⟨⟨h0, by show b < (n : Int); omega⟩, hw⟩

/-- A load leaves the cells below it as they were. -/
theorem Memory.read_load_of_lt {m : Memory} {a : Nat} {b w : Int} (l : List Int) (hb : b < (a : Int)) (h : m.read b = some w) :
    (m.load a l).read b = some w := by
  induction l generalizing m a with
  | nil => exact h
  | cons v t ih =>
    exact ih (by omega) (Memory.read_grow_put (Nat.le_max_left ..) (by omega) (by omega) h)

/-- A load places its values from its address on. -/
theorem Memory.cellsAt_load (m : Memory) (a : Nat) (l : List Int) : CellsAt (m.load a l) (a : Int) l := by
  induction l generalizing m a with
  | nil => exact fun k h => absurd h (Nat.not_lt_zero k)
  | cons v t ih =>
    intro k h
    cases k with
    | zero =>
      have hput : ({ m with len := max m.len (a + 1) }.put (a : Int) v).read (a : Int) = some v := by
        rw [Memory.read_put _ _ _ _ (by omega) (by show (a : Int) < ((max m.len (a + 1) : Nat) : Int); omega), if_pos rfl]
      simpa [Memory.load] using Memory.read_load_of_lt t (by omega) hput
    | succ k =>
      have htail := ih ({ m with len := max m.len (a + 1) }.put (a : Int) v) (a + 1) k (by simpa using h)
      have haddr : (a : Int) + ((k + 1 : Nat) : Int) = ((a + 1 : Nat) : Int) + (k : Int) := by omega
      rw [haddr]
      exact htail

theorem decode_of_decodeTableWord {nbits w : Nat} {i : Instr} (h : decodeTableWord nbits w = some i) :
    ∃ rest, decode (tableCells w) = .ok (i, rest) := by
  unfold decodeTableWord at h
  cases hd : decode (tableCells w) with
  | error e => simp [hd] at h
  | ok r => exact ⟨r.2, by simpa [hd, Prod.ext_iff] using h⟩

/-- The self-test passes where a word has been loaded: an output it would fail on is gone. -/
theorem selfTestPasses_loadWord (s : State) (w : Nat) : SelfTestPasses (loadWord s w) := by
  intro on v hv
  cases hs : selfTestError s with
  | some e => simp [loadWord, hs] at hv
  | none => exact (selfTestError_eq_none_iff s).1 hs on v (by simpa [loadWord, hs] using hv)

theorem instrAt_loadWord {nbits w : Nat} {i : Instr} (s : State) (h : decodeTableWord nbits w = some i) :
    InstrAt (loadWord s w) i := by
  obtain ⟨rest, hd⟩ := decode_of_decodeTableWord h
  exact ⟨tableCells w, rest, Memory.cellsAt_load s.mem s.pc.toNat (tableCells w), hd⟩

/-- When `i` stands at `pc` and the self-test passes, a step of a running machine is `exec` of `i` (R80, R170). -/
theorem step_eq_exec {s : State} {i : Instr} (hs : s.status = .running) (hi : InstrAt s i) (hp : SelfTestPasses s) :
    step s = exec i s :=
  step_of_fetch_ok hs ((fetchInstr_ok_iff s i).2 ⟨hi, .inr hp⟩)

/-! ## Opcodes and effects -/

theorem opcode_eq_halt_iff (i : Instr) : i.opcode = .halt ↔ i = .halt := by
  cases i <;> simp [Instr.opcode]

/-- An effect changes the last output only where it is that of an `out`. -/
theorem effect_lastOutput {i : Instr} {s s' : State} (h : Effect i s s') :
    s'.lastOutput = s.lastOutput ∨ ∃ a v, i = .out a ∧ Reads s a v ∧ s'.lastOutput = some v := by
  cases h with
  | outputs is value => exact .inr ⟨_, _, is, value, rfl⟩
  | stores | jumps | stays => exact .inl rfl

/-- The ends of a step where it does not matter what raised an error: halted, completed or raised. -/
theorem steps_ends {s t : State} (h : Steps s t) :
    (InstrAt s .halt ∧ t = s.setStatus .halted) ∨
    (∃ i s', InstrAt s i ∧ i ≠ .halt ∧ SelfTestPasses s ∧ Effect i s s' ∧ t = complete i.opcode s.pc s') ∨
    (∃ e, t = raiseError e s) := by
  obtain halts | completes | ⟨_, e, -, -, -, -, ht⟩ | ⟨e, -, ht⟩ := steps_cases h
  · exact .inl halts
  · exact .inr (.inl completes)
  · exact .inr (.inr ⟨e, ht⟩)
  · exact .inr (.inr ⟨e, ht⟩)

/-! ## Relations that instructions carry over -/

/-- `R` relates states that agree on the parameters, memory and `pc`, and go on being related under the same update. -/
structure KeptByUpdates (R : State → State → Prop) : Prop where
  config : ∀ {s u}, R s u → u.config = s.config
  mem : ∀ {s u}, R s u → u.mem = s.mem
  pc : ∀ {s u}, R s u → u.pc = s.pc
  setMem : ∀ {s u} m, R s u → R (s.setMem m) (u.setMem m)
  setPc : ∀ {s u} a, R s u → R (s.setPc a) (u.setPc a)
  setLastOutput : ∀ {s u} v, R s u → R (s.setLastOutput v) (u.setLastOutput v)
  setLastOp : ∀ {s u} op, R s u → R (s.setLastOp op) (u.setLastOp op)
  setStatus : ∀ {s u} st, R s u → R (s.setStatus st) (u.setStatus st)
  raiseError : ∀ {s u} e, R s u → R (raiseError e s) (raiseError e u)

/-- Both operations answer related states, or both raise the same error. -/
inductive SameResult (R : State → State → Prop) : Except ErrorRecord State → Except ErrorRecord State → Prop where
  | ok {s u : State} (h : R s u) : SameResult R (.ok s) (.ok u)
  | error (e : ErrorRecord) : SameResult R (.error e) (.error e)

theorem SameResult.bind {R : State → State → Prop} {α : Type} (x : Except ErrorRecord α) {f g : α → Except ErrorRecord State}
    (h : ∀ a, SameResult R (f a) (g a)) : SameResult R (x.bind f) (x.bind g) := by
  cases x with
  | ok a => exact h a
  | error e => exact .error e

theorem readOperand_congr {s u : State} (hmem : u.mem = s.mem) (hpc : u.pc = s.pc) (op : Opcode) (k : Nat) (p : Param) :
    readOperand u op k p = readOperand s op k p := by
  simp only [readOperand, memRead, hmem, hpc]

theorem checkWord_congr {s u : State} (hconfig : u.config = s.config) (hpc : u.pc = s.pc) (op : Opcode) (v : Int) :
    checkWord u op v = checkWord s op v := by
  simp only [checkWord, hconfig, hpc]

section
variable {R : State → State → Prop} {s u : State} (hR : KeptByUpdates R) (h : R s u)
include hR h

theorem writeOperand_sameResult (op : Opcode) (k : Nat) (p : Param) (v : Int) :
    SameResult R (writeOperand s op k p v) (writeOperand u op k p v) := by
  simp only [writeOperand, memWrite, hR.mem h, hR.pc h]
  cases p.mode with
  | direct =>
    cases s.mem.write p.raw v with
    | some m => exact .ok (hR.setMem m h)
    | none => exact .error _
  | immediate | other => exact .error _

theorem arithmetic_sameResult (op : Opcode) (f : Int → Int → Int) (a b d : Param) :
    SameResult R (arithmetic op f a b d s) (arithmetic op f a b d u) := by
  simp only [arithmetic, readOperand_congr (hR.mem h) (hR.pc h), checkWord_congr (hR.config h) (hR.pc h)]
  exact .bind _ fun x => .bind _ fun y => .bind _ fun _ => writeOperand_sameResult hR h ..

theorem comparison_sameResult (op : Opcode) (holds : Int → Int → Bool) (a b d : Param) :
    SameResult R (comparison op holds a b d s) (comparison op holds a b d u) := by
  simp only [comparison, readOperand_congr (hR.mem h) (hR.pc h)]
  exact .bind _ fun x => .bind _ fun y => writeOperand_sameResult hR h ..

theorem jump_sameResult (op : Opcode) (taken : Int → Bool) (a t : Param) :
    SameResult R (jump op taken a t s) (jump op taken a t u) := by
  simp only [jump, readOperand_congr (hR.mem h) (hR.pc h)]
  refine .bind _ fun x => ?_
  split
  · exact .bind _ fun y => .ok (hR.setPc y h)
  · exact .ok h

theorem complete_related (op : Opcode) (pc0 : Int) : R (complete op pc0 s) (complete op pc0 u) := by
  simp only [complete, hR.pc h]
  split
  · exact hR.setLastOp op (hR.setPc _ h)
  · exact hR.setLastOp op h

theorem conclude_related {r r' : Except ErrorRecord State} (op : Opcode) (hr : SameResult R r r') :
    ∃ t t', conclude op s r = .next t ∧ conclude op u r' = .next t' ∧ R t t' := by
  cases hr with
  | ok hs =>
    refine ⟨_, _, rfl, rfl, ?_⟩
    rw [hR.pc h]
    exact complete_related hR hs op s.pc
  | error e => exact ⟨_, _, rfl, rfl, hR.raiseError e h⟩

/-- An instruction takes related states to related states; only `store` needs that they agree on the pending input too. -/
theorem exec_related (i : Instr) (hin : i.opcode = .store → u.pendingInput = s.pendingInput) :
    ∃ t t', exec i s = .next t ∧ exec i u = .next t' ∧ R t t' := by
  cases i with
  | add a b d => exact conclude_related hR h .add (arithmetic_sameResult hR h ..)
  | mul a b d => exact conclude_related hR h .mul (arithmetic_sameResult hR h ..)
  | store d =>
    refine conclude_related hR h .store ?_
    rw [hin rfl, checkWord_congr (hR.config h) (hR.pc h)]
    exact .bind _ fun _ => writeOperand_sameResult hR h ..
  | out a =>
    refine conclude_related hR h .out ?_
    rw [readOperand_congr (hR.mem h) (hR.pc h)]
    exact .bind _ fun x => .ok (hR.setLastOutput x h)
  | jumpIfTrue a t => exact conclude_related hR h .jumpIfTrue (jump_sameResult hR h ..)
  | jumpIfFalse a t => exact conclude_related hR h .jumpIfFalse (jump_sameResult hR h ..)
  | lessThan a b d => exact conclude_related hR h .lessThan (comparison_sameResult hR h ..)
  | equals a b d => exact conclude_related hR h .equals (comparison_sameResult hR h ..)
  | halt => exact ⟨_, _, rfl, rfl, hR.setStatus .halted h⟩

end

/-- The second state is the first with the pending input `v`. -/
def HasInput (v : Int) (s u : State) : Prop := u = s.setPendingInput v

theorem hasInput_kept (v : Int) : KeptByUpdates (HasInput v) where
  config := by rintro s _ rfl; rfl
  mem := by rintro s _ rfl; rfl
  pc := by rintro s _ rfl; rfl
  setMem := by rintro s _ m rfl; rfl
  setPc := by rintro s _ a rfl; rfl
  setLastOutput := by rintro s _ x rfl; rfl
  setLastOp := by rintro s _ op rfl; rfl
  setStatus := by rintro s _ st rfl; rfl
  raiseError := by rintro s _ e rfl; rfl

/-- The second state is the first but for `LAST_OUTPUT` and `LAST_OP`. -/
def EqualButOutputs (s u : State) : Prop := ∃ o p, u = { s with lastOutput := o, lastOp := p }

theorem equalButOutputs_kept : KeptByUpdates EqualButOutputs where
  config := by rintro s _ ⟨o, p, rfl⟩; rfl
  mem := by rintro s _ ⟨o, p, rfl⟩; rfl
  pc := by rintro s _ ⟨o, p, rfl⟩; rfl
  setMem := by rintro s _ m ⟨o, p, rfl⟩; exact ⟨o, p, rfl⟩
  setPc := by rintro s _ a ⟨o, p, rfl⟩; exact ⟨o, p, rfl⟩
  setLastOutput := by rintro s _ x ⟨o, p, rfl⟩; exact ⟨some x, p, rfl⟩
  setLastOp := by rintro s _ op ⟨o, p, rfl⟩; exact ⟨o, some op, rfl⟩
  setStatus := by rintro s _ st ⟨o, p, rfl⟩; exact ⟨o, p, rfl⟩
  raiseError := by rintro s _ e ⟨o, p, rfl⟩; exact ⟨o, p, rfl⟩

theorem afterSelfTest_of_off {s : State} (h : s.config.selfTest = false) (r : Except ErrorRecord Instr) :
    afterSelfTest s r = r := by
  have hnone : selfTestError s = none := (selfTestError_eq_none_iff s).2 fun on => by simp [h] at on
  rw [afterSelfTest, hnone]

/-- With the self-test off the fetch looks at memory and `pc` alone. -/
theorem fetchInstr_congr_of_off {s u : State} (hs : s.config.selfTest = false) (hu : u.config.selfTest = false)
    (hmem : u.mem = s.mem) (hpc : u.pc = s.pc) : fetchInstr u = fetchInstr s := by
  simp only [fetchInstr, fetchCells, afterSelfTest_of_off hs, afterSelfTest_of_off hu, hmem, hpc]

/-- With the self-test off a step of a machine that differs in its outputs alone leads to one that does. -/
theorem step_equalButOutputs {s t u : State} (off : s.config.selfTest = false) (h : EqualButOutputs s u) (ht : step s = .next t) :
    ∃ t', step u = .next t' ∧ EqualButOutputs t t' := by
  have hrun := (step_cases ht).1
  have hfetch : fetchInstr u = fetchInstr s :=
    fetchInstr_congr_of_off off (by rw [equalButOutputs_kept.config h, off]) (equalButOutputs_kept.mem h) (equalButOutputs_kept.pc h)
  have hstatus : u.status = .running := by obtain ⟨o, p, rfl⟩ := h; exact hrun
  have hinput : u.pendingInput = s.pendingInput := by obtain ⟨o, p, rfl⟩ := h; rfl
  cases hf : fetchInstr s with
  | ok i =>
    obtain ⟨t₀, t', h₀, h', hR⟩ := exec_related equalButOutputs_kept h i fun _ => hinput
    obtain rfl : t = t₀ := Host.Outcome.next.inj (ht.symm.trans ((step_of_fetch_ok hrun hf).trans h₀))
    exact ⟨t', (step_of_fetch_ok hstatus (hfetch.trans hf)).trans h', hR⟩
  | error e =>
    obtain rfl : t = raiseError e s := Host.Outcome.next.inj (ht.symm.trans (step_of_fetch_error hrun hf))
    exact ⟨_, step_of_fetch_error hstatus (hfetch.trans hf), equalButOutputs_kept.raiseError e h⟩

/-! ## The invariant -/

theorem inv_constructed (c : Config) (p : List Int) : Inv (State.constructed c p) where
  memory := Memory.ofList_wf p
  error := ⟨fun _ => nofun, fun _ => rfl⟩
  halted := nofun
  lastOp := nofun
  output _ := rfl
  selfTest _ _ := nofun

/-- Raising an error keeps the invariant. -/
theorem inv_raiseError {s : State} (hi : Inv s) (e : ErrorRecord) : Inv (raiseError e s) where
  memory := hi.memory
  error := ⟨nofun, fun h => absurd rfl h⟩
  halted := nofun
  lastOp := hi.lastOp
  output := hi.output
  selfTest := hi.selfTest

/-- Halting at a halt word keeps the invariant. -/
theorem inv_setStatus_halted {s : State} (hi : Inv s) (hs : s.status = .running) (hw : HaltWordAt s) :
    Inv (s.setStatus .halted) where
  memory := hi.memory
  error := ⟨fun _ => nofun, fun _ => hi.error.2 (by rw [hs]; nofun)⟩
  halted _ := hw
  lastOp := hi.lastOp
  output := hi.output
  selfTest := hi.selfTest

/-- Completing an instruction other than halt, before which the self-test passed, keeps the invariant: an output it finds is then 0, so one
that is not 0 is its own. -/
theorem inv_complete {i : Instr} {s s' : State} (hi : Inv s) (hs : s.status = .running) (hn : i ≠ .halt) (hp : SelfTestPasses s)
    (he : Effect i s s') : Inv (complete i.opcode s.pc s') where
  memory := by rw [complete_mem]; exact effect_memory_wf he hi.memory
  error := by rw [complete_error, complete_status, effect_error he, effect_status he]; exact hi.error
  halted h := by rw [complete_status, effect_status he, hs] at h; cases h
  lastOp h := by
    rw [complete_lastOp] at h
    exact hn ((opcode_eq_halt_iff i).1 (Option.some.inj h))
  output h := by rw [complete_lastOp] at h; cases h
  selfTest on v hv hv0 := by
    rw [complete_config, effect_config he] at on
    rw [complete_lastOutput] at hv
    obtain hsame | ⟨a, x, rfl, -, -⟩ := effect_lastOutput he
    · exact absurd (hp on v (hsame ▸ hv)) hv0
    · exact complete_lastOp ..

end Sys2Proof.Machine
end

section
/-! THE OBLIGATIONS about the state. -/

namespace Sys2Proof.Proofs

open Sys2Proof Sys2Proof.Machine Sys2Proof.Safety

/-- Settles O34, by the ways a step can end: halting, completing and raising each keep the invariant. -/
theorem everyStepKeepsTheInvariant : Obligations.EveryStepKeepsTheInvariant := by
  intro s t hi h
  have hs := (step_cases h).1
  obtain ⟨hw, rfl⟩ | ⟨i, s', -, hn, hp, he, rfl⟩ | ⟨e, rfl⟩ := steps_ends ⟨hs, h⟩
  · exact inv_setStatus_halted hi hs (haltWordAt_of_instrAt hw)
  · exact inv_complete hi hs hn hp he
  · exact inv_raiseError hi e

/-- Settles O27: only a completed effect could change them, and none does. -/
theorem stepsKeepParametersLengthAndInput : Obligations.StepsKeepParametersLengthAndInput := by
  intro s t h
  obtain ⟨-, rfl⟩ | ⟨i, s', -, -, -, he, rfl⟩ | ⟨e, rfl⟩ := steps_ends h
  · exact ⟨rfl, rfl, rfl⟩
  · rw [complete_config, complete_mem, complete_pendingInput]
    exact ⟨effect_config he, effect_memLen he, effect_pendingInput he⟩
  · exact ⟨rfl, rfl, rfl⟩

/-- Settles O28: of the ways a step can end, only the effect of an `out` changes the last output. -/
theorem onlyOutChangesTheLastOutput : Obligations.OnlyOutChangesTheLastOutput := by
  intro s t h hne
  obtain ⟨-, rfl⟩ | ⟨i, s', hat, -, -, he, rfl⟩ | ⟨e, rfl⟩ := steps_ends h
  · exact absurd rfl hne
  · rw [complete_lastOutput] at hne ⊢
    obtain hsame | ⟨a, v, rfl, hv, hout⟩ := effect_lastOutput he
    · exact absurd hsame hne
    · exact ⟨a, v, hat, hv, hout⟩
  · exact absurd rfl hne

/-- Settles O29: a step after which the machine runs has completed an instruction, and the other ends leave `LAST_OP` alone. -/
theorem lastOpIsTheLastCompletedOpcode : Obligations.LastOpIsTheLastCompletedOpcode := by
  intro s t h
  obtain ⟨-, rfl⟩ | ⟨i, s', hat, hn, -, he, rfl⟩ | ⟨e, rfl⟩ := steps_ends h
  · exact ⟨nofun, fun _ => rfl⟩
  · have hrun : (complete i.opcode s.pc s').status = .running := by rw [complete_status, effect_status he, h.1]
    exact ⟨fun _ => ⟨i, hat, hn, complete_lastOp ..⟩, fun hnot => absurd hrun hnot⟩
  · exact ⟨nofun, fun _ => rfl⟩

/-- Settles O40, by induction on the two cell lists: equal values force equal first addresses. -/
theorem canonicalMemoriesWithEqualCellsAreEqual : Obligations.CanonicalMemoriesWithEqualCellsAreEqual := by
  rintro ⟨len, cells⟩ ⟨_, cells'⟩ hm hn rfl hread
  have hlookup : ∀ b < len, Memory.lookup cells b = Memory.lookup cells' b := by
    intro b hb
    have hm' := (Memory.read_eq_some_iff ⟨len, cells⟩ (b : Int) _).2 ⟨⟨by omega, by show (b : Int) < (len : Int); omega⟩, rfl⟩
    rw [hread] at hm'
    exact ((Memory.read_eq_some_iff ..).1 hm').2.symm
  exact congrArg (Memory.mk len) (Memory.cells_eq_of_lookup_eq hm hn hlookup)

/-- Settles O41: a program in range is accepted, and its memory reads and lists as the program. -/
theorem constructionGivesTheResetValues : Obligations.ConstructionGivesTheResetValues := by
  refine ⟨rfl, fun c p hp => ⟨State.constructed c p, ?_, rfl, rfl, Memory.read_ofList p, Memory.toList_ofList p, rfl, rfl, rfl, rfl, rfl, rfl⟩⟩
  have hall : p.all (wordFits c) = true := List.all_eq_true.2 fun v hv => (wordFits_iff c v).2 (hp v hv)
  rw [construct, if_pos hall]

/-- Settles O51: every instruction but `store` carries over the relation of differing in the pending input alone. -/
theorem onlyStoreReadsThePendingInput : Obligations.OnlyStoreReadsThePendingInput := by
  intro i s v hi
  obtain ⟨t, t', hs, hu, rfl⟩ := exec_related (hasInput_kept v) (s := s) rfl i fun h => absurd h hi
  rw [hs]
  exact hu

/-- Settles O52: with the self-test off a step carries over the relation of differing in `LAST_OUTPUT` and `LAST_OP` alone. -/
theorem noStepReadsLastOutputOrLastOp : Obligations.NoStepReadsLastOutputOrLastOp := by
  intro s t o p off h
  obtain ⟨_, hu, _, _, rfl⟩ := step_equalButOutputs off ⟨o, p, rfl⟩ h
  exact ⟨_, hu, rfl, rfl, rfl, rfl⟩

/-- Settles O56: the load puts the table word's cells at `pc` and leaves no output that the self-test would fail on. -/
theorem aPlacedTableWordRunsNext : Obligations.APlacedTableWordRunsNext := by
  intro s nbits w i h
  have hat : InstrAt (s.withFetchWord nbits w) i := instrAt_loadWord s h
  exact ⟨hat, step_eq_exec rfl hat (selfTestPasses_loadWord s w)⟩

/-- Settles O31, by the answer of a step in each status. -/
theorem noStepOutsideRunning : Obligations.NoStepOutsideRunning := by
  intro s
  refine ⟨fun h => ?_, fun h => ?_, fun h => ?_⟩ <;> simp only [step, h]

/-- Settles O35: the reset state is a constructed one. -/
theorem resetMeetsTheInvariant : Obligations.ResetMeetsTheInvariant :=
  ⟨rfl, inv_constructed Config.default []⟩

end Sys2Proof.Proofs
end

section
/-! SUPPORT. What the proofs about memory add to the laws: the sequence read at an integer address, where an instruction that leaves `pc` alone
ends, an `add` that completes, and the step at a halt word. -/

namespace Sys2Proof.Machine

open Sys2Proof.Safety

/-- `Memory.read_toList` at an address that is given as an integer. -/
theorem Memory.read_eq_toList_toNat (m : Memory) {a : Int} (h0 : 0 ≤ a) (h : a.toNat < m.toList.length) :
    m.read a = some m.toList[a.toNat] := by
  have hread := m.read_toList a.toNat h
  rwa [Int.toNat_of_nonneg h0] at hread

/-- A store does not touch `pc`, so completing it always advances (R86). -/
theorem complete_setMem_pc (op : Opcode) (s : State) (m : Memory) :
    (complete op s.pc (s.setMem m)).pc = s.pc + (op.paramCount : Int) + 1 := by
  rw [complete_pc, if_pos (State.setMem_pc s m)]

/-- An `add` whose checks all pass writes the sum and completes (R100). -/
theorem exec_add_of_reads {s : State} {a b d : Param} {x y : Int} (hx : Reads s a x) (hy : Reads s b y)
    (hr : InRange s.config (x + y)) (hw : Writable s d) :
    exec (.add a b d) s = .next (complete .add s.pc (s.setMem (s.mem.put d.raw (x + y)))) :=
  conclude_of_ok ((arithmetic_ok_iff ..).2 ⟨x, y, hx, hy, hr, hw, rfl⟩)

/-- A step at a halt word halts, whatever the self-test check would say (R83, R140). -/
theorem step_of_haltWordAt {s : State} (hs : s.status = .running) (h : HaltWordAt s) : step s = .next (s.setStatus .halted) :=
  step_of_fetch_ok hs ((fetchInstr_ok_iff ..).2 ⟨(instrAt_halt_iff s).2 h, .inl rfl⟩)

end Sys2Proof.Machine
end

section
/-! THE OBLIGATIONS about memory. -/

namespace Sys2Proof.Proofs

open Sys2Proof Sys2Proof.Machine Sys2Proof.Safety

/-- Settles O38, by the bounds of the write and the read after a write. -/
theorem memoryWritesChangeOneCell : Obligations.MemoryWritesChangeOneCell := by
  intro s pc op slot a v
  refine ⟨fun hout => (memWrite_error_iff ..).2 ⟨hout, rfl⟩, fun h0 hlen => ⟨?_, ?_, ?_, ?_⟩⟩
  · exact (memWrite_ok_iff ..).2 ⟨⟨h0, hlen⟩, rfl⟩
  · exact Memory.put_len ..
  · rw [Memory.read_put _ _ _ _ h0 hlen, if_pos rfl]
  · exact fun b hb => Memory.read_put_of_ne _ _ _ _ h0 hb

/-- Settles O39, by the bounds of the read and the sequence a memory holds. -/
theorem memoryReadsAreBounded : Obligations.MemoryReadsAreBounded := by
  intro s op slot a
  refine ⟨fun hout => (memRead_error_iff ..).2 ⟨hout, rfl⟩, fun h0 h => ?_⟩
  exact (memRead_ok_iff ..).2 (s.mem.read_eq_toList_toNat h0 h)

/-- Settles O49: the sum stands where the completed `add` leaves `pc`, so the next step fetches it, a halt word. -/
theorem aSelfModifyingWriteIsFetched : Obligations.ASelfModifyingWriteIsFetched := by
  intro s a b d x y hrun hself hat hx hy hr hw hd h0 h99
  have hstep : step s = .next (complete .add s.pc (s.setMem (s.mem.put d.raw (x + y)))) :=
    (step_eq_exec hrun hat hself).trans (exec_add_of_reads hx hy hr hw)
  generalize ht : complete .add s.pc (s.setMem (s.mem.put d.raw (x + y))) = t at hstep
  have hstatus : t.status = .running := by rw [← ht, complete_status, State.setMem_status, hrun]
  have hpc : t.pc = s.pc + 4 := by rw [← ht, complete_setMem_pc, add_assoc]; rfl
  have hcell : t.mem.read (s.pc + 4) = some (x + y) := by
    obtain ⟨-, hlow, hlen⟩ := hw
    rw [← ht, complete_mem, State.setMem_mem, Memory.read_put _ _ _ _ hlow hlen, if_pos hd.symm]
  have hhalt : HaltWordAt t := ⟨x + y, by rw [hpc, hcell], h0, h99⟩
  exact ⟨t, hstep, hcell, step_of_haltWordAt hstatus hhalt⟩

end Sys2Proof.Proofs
end

section
/-! SUPPORT. What the proofs about the encoding add to the laws: an instruction's cells as its word and raw values, the cells that decode to an
instruction, and the fetch of a negative word. -/

namespace Sys2Proof

/-! ## The cells of an instruction -/

/-- The mode digits of a list of parameters as one decimal number, the first slot's digit lowest (R61). -/
def modesNumber (ps : List Param) : Nat := Nat.ofDigits 10 (ps.map fun p => p.mode.digit)

@[simp] theorem modesNumber_nil : modesNumber [] = 0 := rfl

@[simp] theorem modesNumber_cons (p : Param) (ps : List Param) : modesNumber (p :: ps) = p.mode.digit + 10 * modesNumber ps := rfl

theorem modesNumber_lt {ps : List Param} (h : ∀ p ∈ ps, p.wf = true) : modesNumber ps < 10 ^ ps.length := by
  have hdigits : ∀ d ∈ ps.map (fun p => p.mode.digit), d < 10 := by
    intro d hd
    obtain ⟨p, hp, rfl⟩ := List.mem_map.1 hd
    exact Nat.lt_succ_of_le (Mode.digit_le (h p hp))
  simpa [modesNumber] using Nat.ofDigits_lt_base_pow_length (by decide) hdigits

theorem Param.wf_of_direct {p : Param} (h : p.mode = .direct) : p.wf = true := by rw [Param.wf, h]; rfl

theorem Instr.wf_iff (i : Instr) : i.wf = true ↔ ∀ p ∈ i.params, p.wf = true := by
  cases i <;> simp [Instr.wf, Instr.params, and_assoc]

/-- The canonical word of an instruction (R75). -/
def Instr.word (i : Instr) : Nat := i.opcode.number + 100 * modesNumber i.params

/-- The cells of an instruction are its canonical word and its raw values (R60, R75). -/
theorem encode_eq (i : Instr) : encode i = (i.word : Int) :: i.params.map Param.raw := by
  cases i <;>
    simp only [encode, canonicalWord, Instr.word, Instr.opcode, Instr.params, modesNumber_cons, modesNumber_nil, Mode.digit,
      List.map_cons, List.map_nil, List.cons.injEq, and_true] <;> omega

theorem encode_length (i : Instr) : (encode i).length = i.params.length + 1 := by simp [encode_eq]

theorem Instr.word_lt {i : Instr} (h : i.wf = true) : i.word < 10 ^ (i.params.length + 2) := by
  have hmodes := modesNumber_lt ((Instr.wf_iff i).1 h)
  have hop := i.opcode.number_lt
  rw [Instr.word, Nat.pow_add]
  omega

/-! ## The cells that decode to an instruction -/

theorem slotMode_eq_iff (w slot : Nat) (m : Mode) : slotMode w slot = m ↔ m.wf = true ∧ digit w (slot + 1) = m.digit := by
  constructor
  · rintro rfl
    exact ⟨slotMode_wf w slot, (Mode.digit_ofDigit _).symm⟩
  · rintro ⟨hm, hd⟩
    rw [slotMode, hd, Mode.ofDigit_digit hm]

/-- The digits of a word from position `k` on: the one at `k`, then those from `k + 1` on. -/
theorem digits_succ (w k n : Nat) : w / 10 ^ k % 10 ^ (n + 1) = digit w k + 10 * (w / 10 ^ (k + 1) % 10 ^ n) := by
  rw [digit, Nat.pow_succ' (m := 10) (n := n), Nat.mod_mul, Nat.div_div_eq_div_mul, ← Nat.pow_succ]

/-- A decimal number is determined by its lowest digit and the number of the others. -/
theorem digit_add_eq_iff (w k : Nat) {m : Mode} (hm : m.wf = true) (a b : Nat) :
    digit w k + 10 * a = m.digit + 10 * b ↔ digit w k = m.digit ∧ a = b := by
  have hd : digit w k < 10 := Nat.mod_lt _ (by decide)
  have hle := Mode.digit_le hm
  omega

/-- Parameters read with a word's mode digits: the cells are the raw values, and the word's digits from the first slot on are the modes. -/
theorem paramsFrom_eq_iff (w slot : Nat) (raws : List Int) (ps : List Param) :
    paramsFrom w slot raws = ps ↔
      raws = ps.map Param.raw ∧ (∀ p ∈ ps, p.wf = true) ∧ w / 10 ^ (slot + 1) % 10 ^ ps.length = modesNumber ps := by
  induction ps generalizing slot raws with
  | nil => cases raws <;> simp [paramsFrom, Nat.mod_one]
  | cons p ps ih =>
    obtain ⟨m, r⟩ := p
    cases raws with
    | nil => simp [paramsFrom]
    | cons r' raws =>
      simp only [paramsFrom, List.cons.injEq, Param.mk.injEq, slotMode_eq_iff, ih, List.map_cons, List.length_cons, List.forall_mem_cons,
        digits_succ, modesNumber_cons, Param.wf]
      constructor
      · rintro ⟨⟨⟨hm, hd⟩, hr⟩, hraws, hps, hn⟩
        exact ⟨⟨hr, hraws⟩, ⟨hm, hps⟩, (digit_add_eq_iff _ _ hm _ _).2 ⟨hd, hn⟩⟩
      · rintro ⟨⟨hr, hraws⟩, ⟨hm, hps⟩, hn⟩
        obtain ⟨hd, hn⟩ := (digit_add_eq_iff _ _ hm _ _).1 hn
        exact ⟨⟨⟨hm, hd⟩, hr⟩, hraws, hps, hn⟩

/-- A word, cut off above its slots, is the canonical one when its low two digits are the opcode and the next ones the modes. -/
theorem emod_eq_word_iff {w : Int} (h0 : 0 ≤ w) (i : Instr) :
    w % 10 ^ (i.params.length + 2) = i.word ↔
      w.toNat % 100 = i.opcode.number ∧ w.toNat / 10 ^ 2 % 10 ^ i.params.length = modesNumber i.params := by
  lift w to Nat using h0
  have hsplit : w % 10 ^ (i.params.length + 2) = w % 100 + 100 * (w / 10 ^ 2 % 10 ^ i.params.length) := by
    rw [Nat.add_comm, Nat.pow_add, Nat.mod_mul]
  have hop := i.opcode.number_lt
  have hlow := Nat.mod_lt w (show 0 < 100 by decide)
  rw [Int.toNat_natCast, Instr.word]
  norm_cast
  omega

/-- Cells decode to an instruction exactly when they are its canonical encoding, but for the digits above its slots (R62). -/
theorem decode_cons_ok_iff (w : Int) (cells : List Int) (i : Instr) (rest : List Int) :
    decode (w :: cells) = .ok (i, rest) ↔
      i.wf = true ∧ 0 ≤ w ∧ w % 10 ^ (i.params.length + 2) :: cells = encode i ++ rest := by
  rw [decode_ok_iff, encode_eq, List.cons_append, List.cons.injEq, Instr.wf_iff]
  constructor
  · rintro ⟨w', raws, hc, h0, hop, -, hp⟩
    obtain ⟨rfl, rfl⟩ := List.cons.inj hc
    obtain ⟨rfl, hwf, hmodes⟩ := (paramsFrom_eq_iff ..).1 hp.symm
    exact ⟨hwf, h0, (emod_eq_word_iff h0 i).2 ⟨hop, hmodes⟩, rfl⟩
  · rintro ⟨hwf, h0, hw, rfl⟩
    obtain ⟨hop, hmodes⟩ := (emod_eq_word_iff h0 i).1 hw
    exact ⟨w, _, rfl, h0, hop, by simp, ((paramsFrom_eq_iff ..).2 ⟨rfl, hwf, hmodes⟩).symm⟩

/-- The encoding of a well-formed instruction decodes to it, whatever follows. -/
theorem decode_encode {i : Instr} (h : i.wf = true) (rest : List Int) : decode (encode i ++ rest) = .ok (i, rest) := by
  have hcut : (i.word : Int) % 10 ^ (i.params.length + 2) = i.word := by exact_mod_cast Nat.mod_eq_of_lt (Instr.word_lt h)
  rw [encode_eq, List.cons_append, decode_cons_ok_iff, hcut, encode_eq]
  exact ⟨h, Int.natCast_nonneg _, rfl⟩

/-- A word of the table decodes when the cells of its opcode follow. -/
theorem decode_of_paramCount_le {w : Int} {op : Opcode} {cells : List Int} (h0 : 0 ≤ w) (hop : w.toNat % 100 = op.number)
    (hlen : op.paramCount ≤ cells.length) : ∃ i rest, decode (w :: cells) = .ok (i, rest) ∧ i.opcode = op := by
  rw [decode_cons_of_ok cells ((decodeOpcode_ok_iff ..).2 ⟨h0, hop⟩)]
  cases hd : decodeParams op w.toNat cells with
  | error e =>
    obtain ⟨hshort, -⟩ := (decodeParams_error_iff ..).1 hd
    exact absurd hlen (Nat.not_le_of_lt hshort)
  | ok r =>
    obtain ⟨-, -, -, hi, -⟩ := (decodeParams_ok_iff ..).1 hd
    exact ⟨r.1, r.2, rfl, hi⟩

theorem Opcode.exists_number_eq {n : Nat} (h : 1 ≤ n ∧ n ≤ 8 ∨ n = 99) : ∃ op : Opcode, n = op.number := by
  have hsome : Opcode.ofNumber n ≠ none := fun hn => (Opcode.ofNumber_eq_none_iff n).1 hn h
  obtain ⟨op, hop⟩ := Option.ne_none_iff_exists'.1 hsome
  exact ⟨op, (Opcode.ofNumber_eq_some_iff ..).1 hop⟩

end Sys2Proof

namespace Sys2Proof.Machine

/-! ## The fetch of a negative word -/

theorem fetchInstr_of_negative_word {s : State} {w : Int} (hr : s.mem.read s.pc = some w) (hw : w < 0) :
    fetchInstr s = .error (.unknownOpcode s.pc none w) := by
  have hop : decodeOpcode w = .error (.negativeWord w) := (decodeOpcode_error_iff ..).2 (.inl ⟨hw, rfl⟩)
  simp only [fetchInstr, fetchCells_cons hr, decode_cons_of_error _ hop]

end Sys2Proof.Machine
end

section
/-! SUPPORT. What the proofs about the assembler need: where a label stands, and what an assembled line encodes (R76). -/

namespace Sys2Proof.Machine

/-! ## Labels -/

theorem labelsFrom_cons_of_ne_label {l : AsmLine} (h : ∀ n, l ≠ .label n) (a : Nat) (t : List AsmLine) :
    labelsFrom a (l :: t) = labelsFrom (a + l.size) t := by
  cases l with
  | label n => exact absurd rfl (h n)
  | add | mul | store | out | jumpIfTrue | jumpIfFalse | lessThan | equals | halt | word => rfl

/-- The label after some lines is at the address of the cell after theirs. -/
theorem mem_labelsFrom (a : Nat) (before after : List AsmLine) (name : Nat) :
    (name, a + (before.map AsmLine.size).sum) ∈ labelsFrom a (before ++ AsmLine.label name :: after) := by
  induction before generalizing a with
  | nil => exact List.mem_cons_self
  | cons l t ih =>
    by_cases hl : ∃ n, l = .label n
    · obtain ⟨n, rfl⟩ := hl
      rw [List.map_cons, AsmLine.size, List.sum_cons, Nat.zero_add]
      exact List.mem_cons_of_mem (n, a) (ih a)
    · have hne : ∀ n, l ≠ .label n := fun n h => hl ⟨n, h⟩
      rw [List.cons_append, labelsFrom_cons_of_ne_label hne, List.map_cons, List.sum_cons, ← Nat.add_assoc]
      exact ih (a + l.size)

/-- A label that resolves has one definition. -/
theorem eq_of_findLabel {labels : List (Nat × Nat)} {name a b : Nat} (h : findLabel labels name = some a)
    (hb : (name, b) ∈ labels) : a = b := by
  have hmem : (name, b) ∈ labels.filter (fun l => l.1 = name) := List.mem_filter.2 ⟨hb, by simp⟩
  unfold findLabel at h
  split at h
  · next l hl =>
    rw [hl, List.mem_singleton] at hmem
    rw [← Option.some.inj h, ← hmem]
  · cases h
  · cases h

/-! ## Lines -/

/-- The cells are the encoding of a well-formed instruction of `n` cells whose destination, if it has one, is direct. -/
def EncodesDirect (cells : List Int) (n : Nat) : Prop :=
  ∃ i : Instr, encode i = cells ∧ i.wf = true ∧ i.params.length + 1 = n ∧ ∀ d, i.destination = some d → d.mode = .direct

theorem resolveRead_wf {labels : List (Nat × Nat)} {o : AsmOperand} {p : Param} (h : resolveRead labels o = some p) : p.wf = true := by
  cases o <;> obtain ⟨n, -, rfl⟩ := Option.map_eq_some_iff.1 h <;> rfl

theorem resolveDest_mode {labels : List (Nat × Nat)} {o : AsmOperand} {p : Param} (h : resolveDest labels o = some p) :
    p.mode = .direct := by
  cases o with
  | direct v => obtain ⟨n, -, rfl⟩ := Option.map_eq_some_iff.1 h; rfl
  | immediate v => cases h

theorem resolveDest_wf {labels : List (Nat × Nat)} {o : AsmOperand} {p : Param} (h : resolveDest labels o = some p) : p.wf = true :=
  Param.wf_of_direct (resolveDest_mode h)

theorem assembleF3_encodesDirect {labels : List (Nat × Nat)} {mk : Param → Param → Param → Instr} {a b d : AsmOperand} {cells : List Int}
    (hparams : ∀ x y z, (mk x y z).params = [x, y, z]) (hdest : ∀ x y z, (mk x y z).destination = some z)
    (h : assembleF3 labels mk a b d = some cells) : EncodesDirect cells 4 := by
  obtain ⟨x, hx, h⟩ := Option.bind_eq_some_iff.1 h
  obtain ⟨y, hy, h⟩ := Option.bind_eq_some_iff.1 h
  obtain ⟨z, hz, rfl⟩ := Option.map_eq_some_iff.1 h
  refine ⟨mk x y z, rfl, ?_, by rw [hparams]; rfl, ?_⟩
  · simp [Instr.wf_iff, hparams, resolveRead_wf hx, resolveRead_wf hy, resolveDest_wf hz]
  · simpa [hdest] using resolveDest_mode hz

theorem assembleF2_encodesDirect {labels : List (Nat × Nat)} {mk : Param → Param → Instr} {a t : AsmOperand} {cells : List Int}
    (hparams : ∀ x y, (mk x y).params = [x, y]) (hdest : ∀ x y, (mk x y).destination = none)
    (h : assembleF2 labels mk a t = some cells) : EncodesDirect cells 3 := by
  obtain ⟨x, hx, h⟩ := Option.bind_eq_some_iff.1 h
  obtain ⟨y, hy, rfl⟩ := Option.map_eq_some_iff.1 h
  refine ⟨mk x y, rfl, ?_, by rw [hparams]; rfl, ?_⟩
  · simp [Instr.wf_iff, hparams, resolveRead_wf hx, resolveRead_wf hy]
  · simp [hdest]

/-- A line with a mnemonic assembles to the encoding of an instruction of its size, each format in its way. -/
theorem assembleLine_encodesDirect {labels : List (Nat × Nat)} {l : AsmLine} {cells : List Int} (h : assembleLine labels l = some cells)
    (hword : ∀ n, l ≠ .word n) (hlabel : ∀ n, l ≠ .label n) : EncodesDirect cells l.size := by
  cases l with
  | add | mul | lessThan | equals => exact assembleF3_encodesDirect (fun _ _ _ => rfl) (fun _ _ _ => rfl) h
  | jumpIfTrue | jumpIfFalse => exact assembleF2_encodesDirect (fun _ _ => rfl) (fun _ _ => rfl) h
  | store d =>
    obtain ⟨z, hz, rfl⟩ := Option.map_eq_some_iff.1 h
    refine ⟨.store z, rfl, resolveDest_wf hz, rfl, ?_⟩
    rintro _ ⟨⟩
    exact resolveDest_mode hz
  | out a =>
    obtain ⟨x, hx, rfl⟩ := Option.map_eq_some_iff.1 h
    exact ⟨.out x, rfl, resolveRead_wf hx, rfl, nofun⟩
  | halt => exact ⟨.halt, Option.some.inj h, rfl, rfl, nofun⟩
  | word n => exact absurd rfl (hword n)
  | label n => exact absurd rfl (hlabel n)

theorem EncodesDirect.length_eq {cells : List Int} {n : Nat} (h : EncodesDirect cells n) : cells.length = n := by
  obtain ⟨i, rfl, -, rfl, -⟩ := h
  exact encode_length i

theorem assembleLine_length {labels : List (Nat × Nat)} {l : AsmLine} {cells : List Int} (h : assembleLine labels l = some cells) :
    cells.length = l.size := by
  by_cases hword : ∃ n, l = .word n
  · obtain ⟨n, rfl⟩ := hword
    rw [← Option.some.inj h]
    rfl
  · by_cases hlabel : ∃ n, l = .label n
    · obtain ⟨n, rfl⟩ := hlabel
      obtain ⟨-, -, rfl⟩ := Option.map_eq_some_iff.1 h
      rfl
    · exact (assembleLine_encodesDirect h (not_exists.1 hword) (not_exists.1 hlabel)).length_eq

theorem assembleLines_length {labels : List (Nat × Nat)} {lines : List AsmLine} {p : List Int} (h : assembleLines labels lines = some p) :
    p.length = (lines.map AsmLine.size).sum := by
  induction lines generalizing p with
  | nil => rw [← Option.some.inj h]; rfl
  | cons l t ih =>
    obtain ⟨cells, hcells, h⟩ := Option.bind_eq_some_iff.1 h
    obtain ⟨rest, hrest, rfl⟩ := Option.map_eq_some_iff.1 h
    rw [List.length_append, assembleLine_length hcells, ih hrest, List.map_cons, List.sum_cons]

end Sys2Proof.Machine
end

section
/-! THE OBLIGATIONS about the encoding. -/

namespace Sys2Proof.Proofs

open Sys2Proof Sys2Proof.Machine Sys2Proof.Safety

/-- Settles O1: a well-formed instruction's canonical word has no digits above its slots to be ignored. -/
theorem decodeReturnsTheEncodedInstruction : Obligations.DecodeReturnsTheEncodedInstruction :=
  fun _ rest h => decode_encode h rest

/-- Settles O2, by the cells that decode to an instruction: its mode digits and low two digits are those of the word. -/
theorem decodedCellsAreTheEncodingUpToIgnoredDigits : Obligations.DecodedCellsAreTheEncodingUpToIgnoredDigits :=
  fun w cells rest i h => (decode_cons_ok_iff w cells i rest).1 h

/-- Settles O3: decoding depends on the word only through its sign and its digits up to the declared slots. -/
theorem digitsAboveTheSlotsAreIgnored : Obligations.DigitsAboveTheSlotsAreIgnored := by
  intro w k cells rest i hk h
  obtain ⟨hwf, h0, hcells⟩ := (decode_cons_ok_iff ..).1 h
  refine (decode_cons_ok_iff ..).2 ⟨hwf, by positivity, ?_⟩
  rw [Int.add_mul_emod_self_right, hcells]

/-- Settles O4, by the word's sign and whether its low two digits are in the table. -/
theorem everyWordHasOneDecodeOutcome : Obligations.EveryWordHasOneDecodeOutcome := by
  intro w cells
  refine ⟨fun hneg => ?_, fun h0 hout => ?_, fun h0 hin hlen => ?_⟩
  · exact decode_cons_of_error cells ((decodeOpcode_error_iff ..).2 (.inl ⟨hneg, rfl⟩))
  · have hnone : Opcode.ofNumber (w.toNat % 100) = none := (Opcode.ofNumber_eq_none_iff _).2 (by omega)
    have hlow : (w % 100).toNat = w.toNat % 100 := by omega
    rw [hlow]
    exact decode_cons_of_error cells ((decodeOpcode_error_iff ..).2 (.inr ⟨h0, hnone, rfl⟩))
  · obtain ⟨op, hop⟩ := Opcode.exists_number_eq (n := w.toNat % 100) (by omega)
    have hcount : op.paramCount + 1 ≤ 4 := paramCount_le op
    obtain ⟨i, rest, hd, rfl⟩ := decode_of_paramCount_le h0 hop (cells := cells) (by omega)
    exact ⟨i, rest, hd, by omega⟩

/-- Settles O8: the fetch finds that a negative word has no opcode before it looks at anything else. -/
theorem negativeWordRaisesUnknownOpcode : Obligations.NegativeWordRaisesUnknownOpcode :=
  fun _ _ hs hr hw => step_of_fetch_error hs (fetchInstr_of_negative_word hr hw)

/-- Settles O53: each format's cells are an encoding, which decodes whatever follows. -/
theorem assembledLinesDecode : Obligations.AssembledLinesDecode := by
  intro labels l cells rest h hword hlabel
  have hdirect := assembleLine_encodesDirect h hword hlabel
  refine ⟨hdirect.length_eq, ?_⟩
  obtain ⟨i, rfl, hwf, -, hdest⟩ := hdirect
  exact ⟨i, decode_encode hwf rest, hwf, rfl, hdest⟩

/-- Settles O54, by induction on the lines. -/
theorem aListingAssemblesToItsSize : Obligations.AListingAssemblesToItsSize :=
  fun _ _ h => assembleLines_length h

/-- Settles O55: the label is defined there, with the address of the cell after it, and a label that resolves has one definition. -/
theorem aLabelIsTheAddressOfTheNextCell : Obligations.ALabelIsTheAddressOfTheNextCell := by
  intro before after name a h
  have hmem := mem_labelsFrom 0 before after name
  rw [Nat.zero_add] at hmem
  exact eq_of_findLabel h hmem

/-- Settles O5, by evaluating the decoder on each word. -/
theorem wordsOfTheRulesDecode : Obligations.WordsOfTheRulesDecode :=
  ⟨rfl, rfl, rfl, rfl, rfl, rfl, rfl⟩

end Sys2Proof.Proofs
end

section
/-! SUPPORT. What the proofs about the execution loop add to the laws: the fetch by its cells and its word, what an instruction leaves in memory
and in `pc`, and the loop along the steps of a run. -/

namespace Sys2Proof.Machine

open Sys2Proof.Safety

/-! ## The fetch, check by check (R81 to R84, R162) -/

/-- A window from an address of memory or beyond ends at its size or at the end of memory. -/
theorem Memory.window_length (m : Memory) {a : Int} (h0 : 0 ≤ a) (n : Nat) :
    (m.window a n).length = min n (m.len - a.toNat) := by
  induction n generalizing a with
  | zero => simp [Memory.window]
  | succ n ih =>
    cases hr : m.read a with
    | none =>
      have hout := (Memory.read_eq_none_iff ..).1 hr
      simp only [Memory.window, hr, List.length_nil]
      omega
    | some v =>
      obtain ⟨⟨-, hlt⟩, -⟩ := (Memory.read_eq_some_iff ..).1 hr
      simp only [Memory.window, hr, List.length_cons, ih (a := a + 1) (by omega)]
      omega

/-- How many parameter cells a step fetches after the word at `pc`. -/
theorem paramCells_length {s : State} {w : Int} (hr : s.mem.read s.pc = some w) :
    (s.mem.window (s.pc + 1) 3).length = min 3 (s.mem.len - (s.pc + 1).toNat) := by
  obtain ⟨⟨h0, -⟩, -⟩ := (Memory.read_eq_some_iff ..).1 hr
  exact s.mem.window_length (by omega) 3

theorem fetchInstr_of_outside {s : State} (h : s.pc < 0 ∨ (s.mem.len : Int) ≤ s.pc) :
    fetchInstr s = .error (.addressOutOfBounds (.at s.pc) none .fetch none s.pc) := by
  simp only [fetchInstr, (fetchCells_nil_iff s).2 h, decode]

section
variable {s : State} {w : Int} (hr : s.mem.read s.pc = some w) (h0 : 0 ≤ w)
include hr h0

/-- Whatever the fetch of a word that is neither negative nor halt answers, the self-test check comes before it. -/
theorem fetchInstr_eq_afterSelfTest (hn : w % 100 ≠ 99) : ∃ r, fetchInstr s = afterSelfTest s r := by
  unfold fetchInstr
  cases hd : decode (fetchCells s) with
  | ok r =>
    obtain ⟨i, rest⟩ := r
    have hi : i ≠ .halt := by
      rintro rfl
      obtain ⟨w', hr', -, h99⟩ := haltWordAt_of_instrAt ((instrAt_iff ..).2 ⟨rest, hd⟩)
      rw [hr] at hr'
      cases hr'
      exact hn h99
    exact ⟨.ok i, if_neg hi⟩
  | error e =>
    rw [fetchCells_cons hr] at hd
    obtain ⟨hc, -⟩ | ⟨w', cs, hc, ⟨hneg, -⟩ | ⟨-, -, rfl⟩ | ⟨op, -, -, -, rfl⟩⟩ := (decode_error_iff ..).1 hd
    · cases hc
    · cases hc
      omega
    · exact ⟨_, rfl⟩
    · exact ⟨_, rfl⟩

theorem fetchInstr_of_unknownOpcode (hn : Opcode.ofNumber (w.toNat % 100) = none) :
    fetchInstr s = afterSelfTest s (.error (.unknownOpcode s.pc (some (w.toNat % 100)) w)) := by
  have hop : decodeOpcode w = .error (.unknownOpcode (w.toNat % 100) w) := (decodeOpcode_error_iff ..).2 (.inr ⟨h0, hn, rfl⟩)
  simp only [fetchInstr, fetchCells_cons hr, decode_cons_of_error _ hop]

variable {op : Opcode} (hop : w.toNat % 100 = op.number)
include hop

/-- The cells before slot `k` are there and its own is the first one past the end of memory (R84). -/
theorem fetchInstr_of_missingCell {k : Nat} (h1 : 1 ≤ k) (hk : k ≤ op.paramCount) (hend : s.pc + (k : Int) = (s.mem.len : Int)) :
    fetchInstr s = afterSelfTest s (.error (.addressOutOfBounds (.at s.pc) (some op) .fetch (some k) (s.pc + (k : Int)))) := by
  have hlen : (s.mem.window (s.pc + 1) 3).length + 1 = k := by
    have hcount : op.paramCount + 1 ≤ 4 := paramCount_le op
    have hin := ((Memory.read_eq_some_iff ..).1 hr).1
    have hwin := paramCells_length hr
    omega
  have hd : decode (fetchCells s) = .error (.missingParameter op k) := by
    rw [fetchCells_cons hr, decode_cons_of_ok _ ((decodeOpcode_ok_iff ..).2 ⟨h0, hop⟩), decodeParams_error_iff]
    exact ⟨by omega, by rw [hlen]⟩
  simp only [fetchInstr, hd]

/-- A word of the table whose parameter cells are all in memory is an instruction (R84). -/
theorem exists_instrAt (hend : s.pc + (op.paramCount : Int) < (s.mem.len : Int)) : ∃ i, InstrAt s i ∧ i.opcode = op := by
  have hlen : op.paramCount ≤ (s.mem.window (s.pc + 1) 3).length := by
    have hcount : op.paramCount + 1 ≤ 4 := paramCount_le op
    have hin := ((Memory.read_eq_some_iff ..).1 hr).1
    have hwin := paramCells_length hr
    omega
  obtain ⟨i, rest, hd, hi⟩ := decode_of_paramCount_le h0 hop hlen
  exact ⟨i, (instrAt_iff ..).2 ⟨rest, by rw [fetchCells_cons hr, hd]⟩, hi⟩

end

/-! ## What an instruction leaves unchanged -/

/-- An effect changes no cell but the one its destination names. -/
theorem effect_read {i : Instr} {s s' : State} (h : Effect i s s') (a : Int) :
    s'.mem.read a = s.mem.read a ∨ ∃ d, i.destination = some d ∧ d.mode = .direct ∧ d.raw = a := by
  cases h with
  | @stores d v dest writable _ =>
    obtain ⟨hmode, hlow, -⟩ := writable
    by_cases ha : a = d.raw
    · exact .inr ⟨d, dest, hmode, ha.symm⟩
    · exact .inl (Memory.read_put_of_ne _ _ _ _ hlow ha)
  | outputs | jumps | stays => exact .inl rfl

/-- Only a jump's effect is on `pc`. -/
theorem effect_pc {i : Instr} {s s' : State} (h : Effect i s s') :
    s'.pc = s.pc ∨ i.opcode = .jumpIfTrue ∨ i.opcode = .jumpIfFalse := by
  cases h with
  | stores | outputs | stays => exact .inl rfl
  | jumps is =>
    obtain ⟨rfl, -⟩ | ⟨rfl, -⟩ := is
    · exact .inr (.inl rfl)
    · exact .inr (.inr rfl)

/-- The ends of an instruction other than halt where it does not matter what raised an error. -/
theorem exec_ends {i : Instr} {s t : State} (hn : i ≠ .halt) (h : exec i s = .next t) :
    (∃ s', Effect i s s' ∧ t = complete i.opcode s.pc s') ∨ ∃ e, t = raiseError e s := by
  obtain ⟨hh, -⟩ | ⟨-, completes⟩ | ⟨-, e, -, ht⟩ := exec_cases h
  · exact absurd hh hn
  · exact .inl completes
  · exact .inr ⟨e, ht⟩

theorem commonFrame_complete {i : Instr} {s s' : State} (h : Effect i s s') : CommonFrame i.opcode s (complete i.opcode s.pc s') := by
  rw [CommonFrame, complete_config, complete_pendingInput, complete_mem, complete_status, complete_error, complete_lastOp]
  exact ⟨effect_config h, effect_pendingInput h, effect_memLen h, .inl ⟨effect_status h, effect_error h, rfl⟩⟩

theorem commonFrame_raiseError (op : Opcode) (s : State) (e : ErrorRecord) : CommonFrame op s (raiseError e s) :=
  ⟨rfl, rfl, rfl, .inr ⟨e, rfl⟩⟩

theorem storingFrame_of_destination {i : Instr} {d : Param} (hd : i.destination = some d) : StoringFrame i.opcode i d := by
  intro s t h
  obtain ⟨s', he, rfl⟩ | ⟨e, rfl⟩ := exec_ends (by rintro rfl; cases hd) h
  · refine ⟨commonFrame_complete he, ?_, fun a ha => ?_⟩
    · rw [complete_lastOutput]
      obtain hsame | ⟨a, v, rfl, -, -⟩ := effect_lastOutput he
      · exact hsame
      · cases hd
    · rw [complete_mem]
      obtain hsame | ⟨d', hd', -, rfl⟩ := effect_read he a
      · exact hsame
      · exact absurd (congrArg Param.raw (Option.some.inj (hd'.symm.trans hd))) ha
  · exact ⟨commonFrame_raiseError .., rfl, fun _ _ => rfl⟩

theorem nonStoringFrame_of_no_destination {i : Instr} (hn : i ≠ .halt) (hd : i.destination = none) : NonStoringFrame i.opcode i := by
  intro s t h
  obtain ⟨s', he, rfl⟩ | ⟨e, rfl⟩ := exec_ends hn h
  · refine ⟨commonFrame_complete he, fun hout => ?_, fun a => ?_⟩
    · rw [complete_lastOutput]
      obtain hsame | ⟨a, v, rfl, -, -⟩ := effect_lastOutput he
      · exact hsame
      · exact absurd rfl hout
    · rw [complete_mem]
      obtain hsame | ⟨d, hd', -, -⟩ := effect_read he a
      · exact hsame
      · cases hd'.symm.trans hd
  · exact ⟨commonFrame_raiseError .., fun _ => rfl, fun _ => rfl⟩

/-! ## The step and `pc` -/

/-- Every running state has a next one: it executes, or an error is raised (R80, R160). -/
theorem step_is_next {s : State} (hs : s.status = .running) : ∃ t, step s = .next t := by
  cases hf : fetchInstr s with
  | ok i => rw [step_of_fetch_ok hs hf]; exact exec_is_next i s
  | error e => exact ⟨_, step_of_fetch_error hs hf⟩

/-- A step that raises no error is `exec` of the instruction at `pc`. -/
theorem exec_of_steps {s t : State} {i : Instr} (h : Steps s t) (hi : InstrAt s i) (hf : t.status ≠ .faulted) : exec i s = .next t := by
  obtain ⟨-, ⟨j, hj, -, hx⟩ | ⟨e, -, rfl⟩⟩ := step_cases h.2
  · rwa [instrAt_unique hi hj]
  · exact absurd rfl hf

/-- An instruction that is neither halt nor a jump, when it completes, advances past its own cells (R86). -/
theorem exec_pc_of_not_jump {i : Instr} {s t : State} (h : exec i s = .next t) (hf : t.status ≠ .faulted) (hn : i ≠ .halt)
    (ht : i.opcode ≠ .jumpIfTrue) (hz : i.opcode ≠ .jumpIfFalse) : t.pc = s.pc + ((i.opcode.paramCount + 1 : Nat) : Int) := by
  obtain ⟨s', he, rfl⟩ | ⟨e, rfl⟩ := exec_ends hn h
  · obtain hpc | hj | hj := effect_pc he
    · rw [complete_pc, if_pos hpc, Nat.cast_succ, add_assoc]
    · exact absurd hj ht
    · exact absurd hj hz
  · exact absurd rfl hf

/-- A jump that completes goes to its target when it is taken, and past its own cells when it is not or when the target is its own address
(R86, R120, R121). -/
theorem jump_pc {op : Opcode} {taken : Int → Bool} {a b : Param} {s t : State} (hop : op.paramCount = 2)
    (h : conclude op s (jump op taken a b s) = .next t) (hf : t.status ≠ .faulted) :
    ∃ x, Reads s a x ∧ (taken x = false → t.pc = s.pc + 3) ∧
      (taken x = true → ∃ y, Reads s b y ∧ t.pc = if y = s.pc then s.pc + 3 else y) := by
  have hadvance : s.pc + (op.paramCount : Int) + 1 = s.pc + 3 := by omega
  obtain ⟨s', hs', rfl⟩ | ⟨e, -, rfl⟩ := conclude_cases h
  · obtain ⟨x, hx, ⟨htaken, y, hy, rfl⟩ | ⟨hnot, rfl⟩⟩ := (jump_ok_iff ..).1 hs'
    · refine ⟨x, hx, by simp [htaken], fun _ => ⟨y, hy, ?_⟩⟩
      rw [complete_pc, hadvance, State.setPc_pc]
    · refine ⟨x, hx, fun _ => ?_, by simp [hnot]⟩
      rw [complete_pc, if_pos rfl, hadvance]
  · exact absurd rfl hf

/-! ## The loop along a run -/

theorem core_run_of_steps {s t : State} (h : Steps s t) (k : Nat) :
    Host.Core.run Sys2Proof.core (k + 1) s = Host.Core.run Sys2Proof.core k t := by
  have hstep : Sys2Proof.core.step s = .next t := h.2
  simp only [Host.Core.run, hstep]

theorem status_running_of_runLoop_none {k : Nat} {s : State} (h : runLoop k s = none) : s.status = .running := by
  by_contra hs
  rw [runLoop_of_not_running hs] at h
  cases h

/-- Along the steps of a run the loop does not change its answer but for the budget they use. -/
theorem runLoop_of_reaches {s t : State} (h : Reaches s t) : ∃ n, ∀ k, runLoop (n + k) s = runLoop k t := by
  induction h with
  | refl => exact ⟨0, fun k => by rw [Nat.zero_add]⟩
  | @tail t u _ last ih =>
    obtain ⟨n, hn⟩ := ih
    refine ⟨n + 1, fun k => ?_⟩
    calc runLoop (n + 1 + k) s = runLoop (n + (k + 1)) s := by rw [Nat.add_right_comm, Nat.add_assoc]
      _ = runLoop (k + 1) t := hn (k + 1)
      _ = runLoop k u := runLoop_of_steps last k

/-- A state in which a run ends is what the loop returns, from some budget on. -/
theorem runLoop_of_reaches_end {s t : State} (h : Reaches s t) (hend : t.status ≠ .running) :
    ∃ n, ∀ k, runLoop (n + k) s = some t := by
  obtain ⟨n, hn⟩ := runLoop_of_reaches h
  exact ⟨n, fun k => (hn k).trans (runLoop_of_not_running hend k)⟩

end Sys2Proof.Machine
end

section
/-! THE OBLIGATIONS about the execution loop. -/

namespace Sys2Proof.Proofs

open Sys2Proof Sys2Proof.Machine Sys2Proof.Safety

/-- Settles O7: no cell is fetched outside memory. -/
theorem fetchOutsideMemoryRaises : Obligations.FetchOutsideMemoryRaises :=
  fun _ hs h => step_of_fetch_error hs (fetchInstr_of_outside h)

/-- Settles O9, clause by clause in the order of the tests. -/
theorem dispatchTestsHaltThenSelfTestThenOpcode : Obligations.DispatchTestsHaltThenSelfTestThenOpcode := by
  intro s w hs hr h0
  refine ⟨fun h99 => ?_, fun h99 hon v hout hv => ?_, fun h99 hno hp => ?_, fun h1 h8 hp hend => ?_⟩
  · exact step_of_haltWordAt hs ⟨w, hr, h0, h99⟩
  · obtain ⟨r, hfetch⟩ := fetchInstr_eq_afterSelfTest hr h0 h99
    have hself := (selfTestError_eq_some_iff ..).2 ⟨v, hon, hout, hv, rfl⟩
    exact step_of_fetch_error hs (hfetch.trans ((afterSelfTest_error_iff ..).2 (.inl hself)))
  · have hnone : Opcode.ofNumber (w.toNat % 100) = none := (Opcode.ofNumber_eq_none_iff _).2 (by omega)
    have hlow : (w % 100).toNat = w.toNat % 100 := by omega
    rw [hlow]
    exact step_of_fetch_error hs
      ((fetchInstr_of_unknownOpcode hr h0 hnone).trans ((afterSelfTest_error_iff ..).2 (.inr ⟨hp, rfl⟩)))
  · obtain ⟨op, hop⟩ := Opcode.exists_number_eq (n := w.toNat % 100) (by omega)
    have hcount : op.paramCount + 1 ≤ 4 := paramCount_le op
    obtain ⟨i, hat, rfl⟩ := exists_instrAt hr h0 hop (by omega)
    exact ⟨i, hat, by omega, step_eq_exec hs hat hp⟩

/-- Settles O10: with slot `k`'s cell at the end of memory, the fetched cells lack exactly that slot and those after it. -/
theorem missingParameterCellRaises : Obligations.MissingParameterCellRaises := by
  intro s w op k hs hp hr h0 hop h1 hk hend
  have hfetch := fetchInstr_of_missingCell hr h0 (by omega) h1 hk hend
  exact step_of_fetch_error hs (hfetch.trans ((afterSelfTest_error_iff ..).2 (.inr ⟨hp, rfl⟩)))

/-- Settles O20, by the frame of every instruction that has a destination. -/
theorem storingInstructionsChangeOnlyTheirDestination : Obligations.StoringInstructionsChangeOnlyTheirDestination :=
  fun _ _ _ => ⟨storingFrame_of_destination rfl, storingFrame_of_destination rfl, storingFrame_of_destination rfl,
    storingFrame_of_destination rfl, storingFrame_of_destination rfl⟩

/-- Settles O21, by the frame of every instruction but halt that has no destination; halt sets `STATUS` alone. -/
theorem otherInstructionsChangeNoMemory : Obligations.OtherInstructionsChangeNoMemory := by
  intro a t
  refine ⟨nonStoringFrame_of_no_destination nofun rfl, nonStoringFrame_of_no_destination nofun rfl,
    nonStoringFrame_of_no_destination nofun rfl, fun s u h => ?_⟩
  obtain rfl : s.setStatus .halted = u := Host.Outcome.next.inj h
  exact ⟨rfl, rfl, fun _ => rfl, rfl, rfl, rfl, rfl, rfl⟩

/-- Settles O22: a running state executes or raises, and a step is answered in no other. -/
theorem exactlyTheRunningStatesStep : Obligations.ExactlyTheRunningStatesStep :=
  fun _ => ⟨step_is_next, fun ⟨_, h⟩ => (step_cases h).1⟩

/-- Settles O26: such a step is `exec` of the instruction at `pc`, which advances unless it is halt or a jump. -/
theorem pcAfterACompletedStep : Obligations.PcAfterACompletedStep := by
  intro s t i h hat hf
  have hx := exec_of_steps h hat hf
  cases i with
  | add | mul | lessThan | equals | store | out => exact exec_pc_of_not_jump hx hf nofun nofun nofun
  | jumpIfTrue a b =>
    obtain ⟨x, hread, hnot, htaken⟩ := jump_pc rfl hx hf
    exact ⟨x, hread, fun h0 => hnot (by simp [conditionHolds, h0]), fun h0 => htaken ((conditionHolds_iff x).2 h0)⟩
  | jumpIfFalse a b =>
    obtain ⟨x, hread, hnot, htaken⟩ := jump_pc rfl hx hf
    exact ⟨x, hread, fun h0 => hnot (by simp [conditionHolds, h0]), fun h0 => htaken (by simp [conditionHolds, h0])⟩
  | halt =>
    obtain rfl : s.setStatus .halted = t := Host.Outcome.next.inj hx
    exact ⟨rfl, rfl⟩

/-- Settles O30: of the ways a step can end, only a completed effect changes memory, and it leaves `STATUS` alone. -/
theorem aStepChangesAtMostTheDestinationCell : Obligations.AStepChangesAtMostTheDestinationCell := by
  intro s t a h hne
  obtain ⟨-, rfl⟩ | ⟨i, s', hat, -, -, he, rfl⟩ | ⟨e, rfl⟩ := steps_ends h
  · exact absurd rfl hne
  · rw [complete_mem] at hne
    obtain hsame | ⟨d, hd, hmode, hraw⟩ := effect_read he a
    · exact absurd hsame hne
    · exact ⟨i, d, hat, hd, hmode, hraw, by rw [complete_status, effect_status he, h.1]⟩
  · exact absurd rfl hne

/-- Settles O47, by induction on the budget: the loop answers nothing only where every step found the machine running. -/
theorem anExhaustedBudgetIsNoHalt : Obligations.AnExhaustedBudgetIsNoHalt := by
  intro k
  induction k with
  | zero => exact fun s h => ⟨s, rfl, status_running_of_runLoop_none h, .refl s⟩
  | succ k ih =>
    intro s h
    have hs := status_running_of_runLoop_none h
    obtain ⟨u, hu⟩ := step_is_next hs
    have hsteps : Steps s u := ⟨hs, hu⟩
    obtain ⟨t, hrun, ht, hreach⟩ := ih u ((runLoop_of_steps hsteps k).symm.trans h)
    exact ⟨t, (core_run_of_steps hsteps k).trans hrun, ht, reaches_of_steps hsteps hreach⟩

/-- Settles O48: with the budgets of both runs added, the loop returns the end of each. -/
theorem aRunHasOneEnd : Obligations.ARunHasOneEnd := by
  intro s t u hst ht hsu hu
  obtain ⟨n, hn⟩ := runLoop_of_reaches_end hst ht
  obtain ⟨m, hm⟩ := runLoop_of_reaches_end hsu hu
  have hboth : some t = some u := by rw [← hn m, Nat.add_comm, hm n]
  exact ⟨Option.some.inj hboth, n, hn 0⟩

/-- Settles O6, by what the fetch answers for the instruction at `pc`. -/
theorem stepRunsTheDecodedInstruction : Obligations.StepRunsTheDecodedInstruction :=
  fun _ _ hs hat hp => step_of_fetch_ok hs ((fetchInstr_ok_iff ..).2 ⟨hat, hp⟩)

end Sys2Proof.Proofs
end

section
/-! SUPPORT. What the proofs about arithmetic add to the laws: the decoding of a format by its opcode's number, the completion of a store, the rule of
an arithmetic instruction, and where a WordOverflow comes from. -/

namespace Sys2Proof

open Sys2Proof.Safety

/-! ## Decoding format F3 -/

/-- The decoder's mode of a slot is the one the statements read off the word (R61). -/
theorem slotMode_toNat {w : Int} (h0 : 0 ≤ w) (slot : Nat) : slotMode w.toNat slot = modeAt w (slot + 1) := by
  lift w to Nat using h0
  rw [slotMode, digit, modeAt, Int.toNat_natCast]
  norm_cast

/-- After a word of `op` come the parameters of `op`. -/
theorem decode_cons_of_number {w : Int} {op : Opcode} (h0 : 0 ≤ w) (hop : w % 100 = (op.number : Int)) (cells : List Int) :
    decode (w :: cells) = decodeParams op w.toNat cells :=
  decode_cons_of_ok cells ((decodeOpcode_ok_iff ..).2 ⟨h0, by omega⟩)

/-- An opcode whose parameters are in format F3 decodes in it (R67). -/
theorem decodesF3_of_decodeParams {op : Opcode} {mk : Param → Param → Param → Instr}
    (h : ∀ w cells, decodeParams op w cells = decodeF3 op mk w cells) : DecodesF3 op.number mk := by
  intro w r1 r2 r3 rest h0 hop
  rw [decode_cons_of_number h0 hop, h, decodeF3, slotMode_toNat h0, slotMode_toNat h0, slotMode_toNat h0]

end Sys2Proof

namespace Sys2Proof.Machine

open Sys2Proof.Safety

/-! ## Range -/

theorem not_inRange_of_outside {c : Config} {n : Nat} {v : Int} (h : c.wordBits = some n)
    (hv : v < -(2 : Int) ^ (n - 1) ∨ (2 : Int) ^ (n - 1) ≤ v) : ¬ InRange c v := by
  intro hr
  obtain ⟨hlow, hhigh⟩ := hr n h
  omega

theorem inRange_of_no_bits {c : Config} (h : c.wordBits = none) (v : Int) : InRange c v := by
  simp [InRange, h]

/-! ## Arithmetic and store -/

/-- The completion of a store to memory: one cell, the advance past the instruction's cells, and `LAST_OP` (R86, R87). -/
theorem complete_setMem (op : Opcode) (s : State) (m : Memory) :
    complete op s.pc (s.setMem m) = { s with mem := m, pc := s.pc + (op.paramCount + 1 : Nat), lastOp := some op } := by
  rw [complete, if_pos (State.setMem_pc s m), add_assoc]
  rfl

/-- An instruction that is `arithmetic` of `f` follows the three-slot rule with the range check (R100, R101). -/
theorem threeSlotRule_of_arithmetic {op : Opcode} {mk : Param → Param → Param → Instr} {f : Int → Int → Int} (hcount : op.paramCount = 3)
    (hexec : ∀ a b d s, exec (mk a b d) s = conclude op s (arithmetic op f a b d s)) : ThreeSlotRule op mk f true := by
  intro s a b d
  have raises : ∀ e, arithmetic op f a b d s = .error e → exec (mk a b d) s = .next (faultedWith s e) :=
    fun e he => (hexec a b d s).trans (conclude_of_error he)
  simp only [arithmetic_error_iff] at raises
  refine ⟨fun x y hx hy hr hw => ?_, fun e h1 => ?_, fun x e hx h2 => ?_, fun x y hx hy _ hr => ?_, fun x y e hx hy hr h3 => ?_⟩
  · rw [hexec, conclude_of_ok ((arithmetic_ok_iff ..).2 ⟨x, y, hx, hy, hr rfl, hw, rfl⟩), complete_setMem, hcount]
    rfl
  · exact raises e (.inl h1)
  · exact raises e (.inr ⟨x, hx, .inl h2⟩)
  · exact raises _ (.inr ⟨x, hx, .inr ⟨y, hy, .inl ⟨hr, rfl⟩⟩⟩)
  · exact raises e (.inr ⟨x, hx, .inr ⟨y, hy, .inr ⟨hr rfl, h3⟩⟩⟩)

theorem add_threeSlotRule : ThreeSlotRule .add Instr.add (fun x y => x + y) true :=
  threeSlotRule_of_arithmetic rfl fun _ _ _ _ => rfl

theorem mul_threeSlotRule : ThreeSlotRule .mul Instr.mul (fun x y => x * y) true :=
  threeSlotRule_of_arithmetic rfl fun _ _ _ _ => rfl

/-- The range check of `store` comes before its destination is looked at (R110). -/
theorem exec_store_of_not_inRange {s : State} (h : ¬ InRange s.config s.pendingInput) (d : Param) :
    exec (.store d) s = .next (faultedWith s (.wordOverflow s.pc .store s.pendingInput)) :=
  conclude_of_error ((bind_error_iff ..).2 (.inl ((checkWord_error_iff ..).2 ⟨h, rfl⟩)))

/-! ## Where a WordOverflow comes from -/

section
variable {s : State} {pc : Int} {op : Opcode} {v : Int}

theorem not_readTrap_wordOverflow {op' : Opcode} {k : Nat} {p : Param} : ¬ ReadTrap s op' k p (.wordOverflow pc op v) := by
  rintro (⟨k, -, he⟩ | ⟨-, -, he⟩) <;> cases he

theorem not_writeTrap_wordOverflow {op' : Opcode} {k : Nat} {p : Param} : ¬ WriteTrap s op' k p (.wordOverflow pc op v) := by
  rintro (⟨-, he⟩ | ⟨k, -, he⟩ | ⟨-, -, he⟩) <;> cases he

/-- Of an instruction's checks, only the range check raises WordOverflow. -/
theorem wordOverflow_of_operandError {i : Instr} (h : OperandError i s (.wordOverflow pc op v)) :
    pc = s.pc ∧ op = i.opcode ∧ CheckedValue i s v ∧ ¬ InRange s.config v := by
  obtain ⟨k, p, -, hread⟩ | ⟨v', hchecked, hrange, he⟩ | ⟨d, -, hwrite⟩ := h
  · exact absurd hread not_readTrap_wordOverflow
  · cases he
    exact ⟨rfl, rfl, hchecked, hrange⟩
  · exact absurd hwrite not_writeTrap_wordOverflow

/-- A WordOverflow record that a step leaves was there before, or is of a checked value of the instruction at `pc`. -/
theorem wordOverflow_of_steps {t : State} (h : Steps s t) (ht : t.error = some (.wordOverflow pc op v)) :
    s.error = some (.wordOverflow pc op v) ∨
    ∃ i, InstrAt s i ∧ pc = s.pc ∧ op = i.opcode ∧ CheckedValue i s v ∧ ¬ InRange s.config v := by
  obtain ⟨-, rfl⟩ | ⟨i, s', -, -, -, heffect, rfl⟩ | ⟨i, e, hat, -, -, he, rfl⟩ | ⟨e, he, rfl⟩ := steps_cases h
  · exact .inl ht
  · rw [complete_error, effect_error heffect] at ht
    exact .inl ht
  · rw [raiseError_error, Option.some.injEq] at ht
    subst ht
    exact .inr ⟨i, hat, wordOverflow_of_operandError he⟩
  · rw [raiseError_error, Option.some.injEq] at ht
    subst ht
    cases he

end

end Sys2Proof.Machine
end

section
/-! THE OBLIGATIONS about arithmetic. -/

namespace Sys2Proof.Proofs

open Sys2Proof Sys2Proof.Machine Sys2Proof.Safety

/-- Settles O11: `add` is in format F3, and its operation is `arithmetic` of the sum. -/
theorem addWritesTheExactSum : Obligations.AddWritesTheExactSum :=
  ⟨decodesF3_of_decodeParams (op := .add) fun _ _ => rfl, add_threeSlotRule⟩

/-- Settles O12: `mul` is in format F3, and its operation is `arithmetic` of the product. -/
theorem mulWritesTheExactProduct : Obligations.MulWritesTheExactProduct :=
  ⟨decodesF3_of_decodeParams (op := .mul) fun _ _ => rfl, mul_threeSlotRule⟩

/-- Settles O33: the range clause of each rule raises, and every WordOverflow of a step has a value out of range, which there is none of
without a word width. -/
theorem wordOverflowIsRaisedAndNeverWrapped : Obligations.WordOverflowIsRaisedAndNeverWrapped := by
  refine ⟨fun s n a b d x y hn hx hy => ⟨fun hsum => ?_, fun hprod => ?_, fun hin => ?_⟩, fun s t pc op v hnone hstep ht => ?_⟩
  · obtain ⟨-, -, -, overflow, -⟩ := add_threeSlotRule s a b d
    exact overflow x y hx hy rfl (not_inRange_of_outside hn hsum)
  · obtain ⟨-, -, -, overflow, -⟩ := mul_threeSlotRule s a b d
    exact overflow x y hx hy rfl (not_inRange_of_outside hn hprod)
  · exact exec_store_of_not_inRange (not_inRange_of_outside hn hin) d
  · obtain hold | ⟨i, -, -, -, -, hrange⟩ := wordOverflow_of_steps hstep ht
    · exact hold
    · exact absurd (inRange_of_no_bits hnone v) hrange

end Sys2Proof.Proofs
end

section
/-! SUPPORT. What the proofs about input and output add to the laws: the decoding of format F1, the pending input along a run, and how `store` and
`out` complete and raise. -/

namespace Sys2Proof

open Sys2Proof.Safety

/-- An opcode whose parameter is in format F1R or F1W decodes in it (R67). -/
theorem decodesF1_of_decodeParams {op : Opcode} {mk : Param → Instr}
    (h : ∀ w cells, decodeParams op w cells = decodeF1 op mk w cells) : DecodesF1 op.number mk := by
  intro w r1 rest h0 hop
  rw [decode_cons_of_number h0 hop, h, decodeF1, slotMode_toNat h0]

end Sys2Proof

namespace Sys2Proof.Machine

open Sys2Proof.Safety

/-- No step changes the pending input, so no run does (R24). -/
theorem pendingInput_of_reaches {s t : State} (h : Reaches s t) : t.pendingInput = s.pendingInput := by
  induction h with
  | refl => rfl
  | tail _ last ih =>
    obtain ⟨-, -, hinput⟩ := Proofs.stepsKeepParametersLengthAndInput _ _ last
    exact hinput.trans ih

section
variable {s : State}

/-- A `store` whose value is representable and whose destination is writable changes that one cell and completes (R110). -/
theorem exec_store_of_writable {d : Param} (hr : InRange s.config s.pendingInput) (hw : Writable s d) :
    exec (.store d) s = .next (complete .store s.pc (s.setMem (s.mem.put d.raw s.pendingInput))) :=
  conclude_of_ok ((bind_ok_iff ..).2 ⟨(), (checkWord_ok_iff ..).2 hr, (writeOperand_ok_iff ..).2 ⟨hw, rfl⟩⟩)

/-- A `store` whose value is representable raises the error of its destination (R110, R71). -/
theorem exec_store_of_writeTrap {d : Param} {e : ErrorRecord} (hr : InRange s.config s.pendingInput) (he : WriteTrap s .store 1 d e) :
    exec (.store d) s = .next (faultedWith s e) :=
  conclude_of_error ((bind_error_iff ..).2 (.inr ⟨(), (checkWord_ok_iff ..).2 hr, (writeOperand_error_iff ..).2 he⟩))

/-- An `out` whose operand has a value puts it in `LAST_OUTPUT` and completes (R111). -/
theorem exec_out_of_reads {a : Param} {v : Int} (hv : Reads s a v) :
    exec (.out a) s = .next (complete .out s.pc (s.setLastOutput v)) :=
  conclude_of_ok ((bind_ok_iff ..).2 ⟨v, (readOperand_ok_iff ..).2 hv, rfl⟩)

/-- An `out` raises the error of its operand (R111, R70). -/
theorem exec_out_of_readTrap {a : Param} {e : ErrorRecord} (he : ReadTrap s .out 1 a e) :
    exec (.out a) s = .next (faultedWith s e) :=
  conclude_of_error ((bind_error_iff ..).2 (.inl ((readOperand_error_iff ..).2 he)))

/-- The completion of an output: the last output, the advance past the instruction's cells, and `LAST_OP` (R86, R87). -/
theorem complete_setLastOutput (op : Opcode) (v : Int) :
    complete op s.pc (s.setLastOutput v) = { s with lastOutput := some v, pc := s.pc + (op.paramCount + 1 : Nat), lastOp := some op } := by
  rw [complete, if_pos (State.setLastOutput_pc s v), add_assoc]
  rfl

end

end Sys2Proof.Machine
end

section
/-! THE OBLIGATIONS about input and output. -/

namespace Sys2Proof.Proofs

open Sys2Proof Sys2Proof.Machine Sys2Proof.Safety

/-- Settles O13: `store` is in format F1W, a run keeps the pending input, and the range check comes before the destination. -/
theorem storeWritesThePendingInput : Obligations.StoreWritesThePendingInput := by
  refine ⟨decodesF1_of_decodeParams (op := .store) fun _ _ => rfl, fun s t => pendingInput_of_reaches, fun s d => ⟨fun hr hw => ?_, ?_, ?_⟩⟩
  · exact (exec_store_of_writable hr hw).trans (congrArg Host.Outcome.next (complete_setMem .store s _))
  · exact fun hr => exec_store_of_not_inRange hr d
  · exact fun e hr he => exec_store_of_writeTrap hr he

/-- Settles O14: `out` is in format F1R, and its operand either has a value, which becomes the last output, or raises. -/
theorem outReplacesTheLastOutput : Obligations.OutReplacesTheLastOutput := by
  refine ⟨decodesF1_of_decodeParams (op := .out) fun _ _ => rfl, fun s a => ⟨fun v hv => ?_, fun e he => ?_⟩⟩
  · exact (exec_out_of_reads hv).trans (congrArg Host.Outcome.next (complete_setLastOutput .out v))
  · exact exec_out_of_readTrap he

end Sys2Proof.Proofs
end

section
/-! SUPPORT. What the proofs about the jumps add to the laws: the decoding of format F2, how a jump completes, and the rule of the two jumps. -/

namespace Sys2Proof

open Sys2Proof.Safety

/-- An opcode whose parameters are in format F2 decodes in it (R67). -/
theorem decodesF2_of_decodeParams {op : Opcode} {mk : Param → Param → Instr}
    (h : ∀ w cells, decodeParams op w cells = decodeF2 op mk w cells) : DecodesF2 op.number mk := by
  intro w r1 r2 rest h0 hop
  rw [decode_cons_of_number h0 hop, h, decodeF2, slotMode_toNat h0, slotMode_toNat h0]

end Sys2Proof

namespace Sys2Proof.Machine

open Sys2Proof.Safety

/-- An operation that changed nothing completes by the advance past the instruction's cells, and `LAST_OP` (R86, R87). -/
theorem complete_unchanged (op : Opcode) (s : State) :
    complete op s.pc s = { s with pc := s.pc + (op.paramCount + 1 : Nat), lastOp := some op } := by
  rw [complete, if_pos rfl, add_assoc]
  rfl

/-- A jump to its own address leaves `pc` unaltered, so it advances (R86). -/
theorem complete_setPc_own (op : Opcode) (s : State) :
    complete op s.pc (s.setPc s.pc) = { s with pc := s.pc + (op.paramCount + 1 : Nat), lastOp := some op } :=
  complete_unchanged op s

/-- A jump to another address does not advance (R86). -/
theorem complete_setPc_of_ne (op : Opcode) {s : State} {y : Int} (h : y ≠ s.pc) :
    complete op s.pc (s.setPc y) = { s with pc := y, lastOp := some op } := by
  rw [complete, State.setPc_pc, if_neg h]
  rfl

/-- An instruction that is `jump` on the test `taken` follows the rule of the jumps for the condition that `taken` decides (R120, R121). -/
theorem jumpRule_of_jump {op : Opcode} {mk : Param → Param → Instr} {taken : Int → Bool} {condition : Int → Prop}
    (hcount : op.paramCount = 2) (htaken : ∀ x, taken x = true ↔ condition x)
    (hexec : ∀ a t s, exec (mk a t) s = conclude op s (jump op taken a t s)) : JumpRule op mk condition := by
  intro s a t
  have completes : ∀ u, jump op taken a t s = .ok u → exec (mk a t) s = .next (complete op s.pc u) :=
    fun u hu => (hexec a t s).trans (conclude_of_ok hu)
  have raises : ∀ e, jump op taken a t s = .error e → exec (mk a t) s = .next (faultedWith s e) :=
    fun e he => (hexec a t s).trans (conclude_of_error he)
  simp only [jump_ok_iff, Bool.eq_false_iff, ne_eq, htaken] at completes
  simp only [jump_error_iff, htaken] at raises
  refine ⟨fun x y hx hc hy hne => ?_, fun x hx hc hown => ?_, fun x hx hc => ?_, fun e h1 => ?_, fun x e hx hc h2 => ?_⟩
  · rw [completes _ ⟨x, hx, .inl ⟨hc, y, hy, rfl⟩⟩, complete_setPc_of_ne op hne]
  · rw [completes _ ⟨x, hx, .inl ⟨hc, s.pc, hown, rfl⟩⟩, complete_setPc_own, hcount]
    rfl
  · rw [completes _ ⟨x, hx, .inr ⟨hc, rfl⟩⟩, complete_unchanged, hcount]
    rfl
  · exact raises e (.inl h1)
  · exact raises e (.inr ⟨x, hx, hc, h2⟩)

/-- The test of `jump-if-false` is whether the condition is 0 (R121). -/
theorem not_conditionHolds_iff (v : Int) : (!conditionHolds v) = true ↔ v = 0 := by simp [conditionHolds]

end Sys2Proof.Machine
end

section
/-! THE OBLIGATIONS about the jumps. -/

namespace Sys2Proof.Proofs

open Sys2Proof Sys2Proof.Machine Sys2Proof.Safety

/-- Settles O15: `jump-if-true` is in format F2, and its operation is `jump` on a condition that is not 0. -/
theorem jumpIfTrueJumpsOnNonZero : Obligations.JumpIfTrueJumpsOnNonZero :=
  ⟨decodesF2_of_decodeParams (op := .jumpIfTrue) fun _ _ => rfl, jumpRule_of_jump rfl conditionHolds_iff fun _ _ _ => rfl⟩

/-- Settles O16: `jump-if-false` is in format F2, and its operation is `jump` on a condition that is 0. -/
theorem jumpIfFalseJumpsOnZero : Obligations.JumpIfFalseJumpsOnZero :=
  ⟨decodesF2_of_decodeParams (op := .jumpIfFalse) fun _ _ => rfl, jumpRule_of_jump rfl not_conditionHolds_iff fun _ _ _ => rfl⟩

end Sys2Proof.Proofs
end

section
/-! SUPPORT. What the proofs about the comparisons add to the laws: the rule of a comparison, which makes no range check. -/

namespace Sys2Proof.Machine

open Sys2Proof.Safety

theorem comparisonResult_decide (p : Prop) [Decidable p] : comparisonResult (decide p) = if p then 1 else 0 := by
  simp only [comparisonResult, decide_eq_true_eq]

/-- An instruction that is `comparison` by `holds` follows the three-slot rule, without the range check, for the value `f` that the comparison
writes (R130, R131). -/
theorem threeSlotRule_of_comparison {op : Opcode} {mk : Param → Param → Param → Instr} {holds : Int → Int → Bool} {f : Int → Int → Int}
    (hcount : op.paramCount = 3) (hvalue : ∀ x y, comparisonResult (holds x y) = f x y)
    (hexec : ∀ a b d s, exec (mk a b d) s = conclude op s (comparison op holds a b d s)) : ThreeSlotRule op mk f false := by
  intro s a b d
  have raises : ∀ e, comparison op holds a b d s = .error e → exec (mk a b d) s = .next (faultedWith s e) :=
    fun e he => (hexec a b d s).trans (conclude_of_error he)
  simp only [comparison_error_iff] at raises
  refine ⟨fun x y hx hy _ hw => ?_, fun e h1 => ?_, fun x e hx h2 => ?_, nofun, fun x y e hx hy _ h3 => ?_⟩
  · rw [hexec, conclude_of_ok ((comparison_ok_iff ..).2 ⟨x, y, hx, hy, hw, rfl⟩), complete_setMem, hcount, hvalue]
    rfl
  · exact raises e (.inl h1)
  · exact raises e (.inr ⟨x, hx, .inl h2⟩)
  · exact raises e (.inr ⟨x, hx, .inr ⟨y, hy, h3⟩⟩)

end Sys2Proof.Machine
end

section
/-! THE OBLIGATIONS about the comparisons. -/

namespace Sys2Proof.Proofs

open Sys2Proof Sys2Proof.Machine Sys2Proof.Safety

/-- Settles O17: `less-than` is in format F3, and its operation is `comparison` by the order of the integers. -/
theorem lessThanWritesOneOrZero : Obligations.LessThanWritesOneOrZero :=
  ⟨decodesF3_of_decodeParams (op := .lessThan) fun _ _ => rfl,
    threeSlotRule_of_comparison rfl (fun _ _ => comparisonResult_decide _) fun _ _ _ _ => rfl⟩

/-- Settles O18: `equals` is in format F3, and its operation is `comparison` by equality. -/
theorem equalsWritesOneOrZero : Obligations.EqualsWritesOneOrZero :=
  ⟨decodesF3_of_decodeParams (op := .equals) fun _ _ => rfl,
    threeSlotRule_of_comparison rfl (fun _ _ => comparisonResult_decide _) fun _ _ _ _ => rfl⟩

end Sys2Proof.Proofs
end

section
/-! SUPPORT. What the proofs about the end of a run add to the laws: the status a step leaves, and the rows of the error table. -/

namespace Sys2Proof.Machine

open Sys2Proof.Safety

/-- The rows of R151: an error's code and its name. -/
def errorTable : List (Nat × String) :=
  [(1, "UnknownOpcode"), (2, "InvalidWriteMode"), (3, "AddressOutOfBounds"), (4, "UnknownParameterMode"), (5, "SelfTestFailure"),
    (6, "WordOverflow")]

/-- Every error record has the code and the name of one row. -/
theorem ErrorRecord.code_name_mem_errorTable (e : ErrorRecord) : (e.code, e.name) ∈ errorTable := by
  cases e <;> simp only [ErrorRecord.code, ErrorRecord.name] <;> decide

theorem status_halted_of_haltWordAt {s t : State} (h : Steps s t) (hw : HaltWordAt s) : t.status = .halted := by
  obtain rfl : s.setStatus .halted = t := Host.Outcome.next.inj ((step_of_haltWordAt h.1 hw).symm.trans h.2)
  rfl

/-- The status a step leaves: halted, at a halt word only; running, when it completes; or faulted, with the error raised in `ERROR`. -/
theorem steps_status {s t : State} (h : Steps s t) :
    (t.status = .halted ∧ HaltWordAt s) ∨ t.status = .running ∨ (t.status = .faulted ∧ ∃ e, t.error = some e) := by
  obtain ⟨hi, rfl⟩ | ⟨i, s', -, -, -, he, rfl⟩ | ⟨e, rfl⟩ := steps_ends h
  · exact .inl ⟨rfl, haltWordAt_of_instrAt hi⟩
  · refine .inr (.inl ?_)
    rw [complete_status, effect_status he, h.1]
  · exact .inr (.inr ⟨rfl, e, rfl⟩)

end Sys2Proof.Machine
end

section
/-! THE OBLIGATIONS about halt and the end of a run. -/

namespace Sys2Proof.Proofs

open Sys2Proof Sys2Proof.Machine Sys2Proof.Safety

/-- Settles O19: halt has no parameter cells and passes the self-test, and a step is answered in a running state only. -/
theorem haltOnlySetsStatus : Obligations.HaltOnlySetsStatus := by
  refine ⟨fun w rest h0 hop => ?_, fun _ => rfl, fun _ hs hw => step_of_haltWordAt hs hw, fun s t hs h => ?_⟩
  · exact decode_cons_of_number (op := .halt) h0 hop rest
  · have hrun : s.status = .running := (step_cases h).1
    cases hs.symm.trans hrun

/-- Settles O25, by the status a step leaves and the table of the errors. -/
theorem runsEndOnlyByHaltOrError : Obligations.RunsEndOnlyByHaltOrError := by
  intro s t h
  refine ⟨⟨fun ht => ?_, status_halted_of_haltWordAt h⟩, fun ht => ?_⟩
  · obtain ⟨-, hw⟩ | hrun | ⟨hfault, -⟩ := steps_status h
    · exact hw
    · cases ht.symm.trans hrun
    · cases ht.symm.trans hfault
  · obtain ⟨hhalt, -⟩ | hrun | ⟨hfault, e, he⟩ := steps_status h
    · exact absurd hhalt ht
    · exact .inl hrun
    · exact .inr ⟨hfault, e, he, e.code_name_mem_errorTable⟩

end Sys2Proof.Proofs
end

section
/-! SUPPORT. What the proofs about the errors add to the laws: the parameters of the instruction at `pc` as cells of memory, the values that stay in
range, and what can raise the error of a faulted step. -/

namespace Sys2Proof.Machine

open Sys2Proof.Safety

/-! ## The parameters of the instruction at `pc` -/

/-- The raw value of slot `k + 1` is the cell that many places after the word (R60, R84). -/
theorem read_of_instrAt_param {s : State} {i : Instr} {k : Nat} {p : Param} (h : InstrAt s i) (hk : i.params[k]? = some p) :
    s.mem.read (s.pc + 1 + (k : Int)) = some p.raw := by
  obtain ⟨cells, rest, hcells, hd⟩ := h
  obtain ⟨w, raws, rfl, -, -, -, hp⟩ := (decode_ok_iff ..).1 hd
  have hraws : CellsAt s.mem (s.pc + 1) raws := cellsAt_append_left (cellsAt_tail hcells)
  rw [hp, paramsFrom_getElem?] at hk
  obtain ⟨r, hr, rfl⟩ := Option.map_eq_some_iff.1 hk
  obtain ⟨hlt, rfl⟩ := List.getElem?_eq_some_iff.1 hr
  exact hraws k hlt

/-- An unknown mode that a step decodes is a digit 2 to 9 (R65). -/
theorem unknownMode_bounds {s : State} {i : Instr} {k m : Nat} {r : Int} (h : InstrAt s i) (hk : i.params[k]? = some ⟨.other m, r⟩) :
    2 ≤ m ∧ m ≤ 9 := by
  obtain ⟨cells, rest, -, hd⟩ := h
  have hwf : (Mode.other m).wf = true := decode_wf hd _ (List.mem_of_getElem? hk)
  simpa [Mode.wf] using hwf

/-- A destination is the parameter of the last slot (R67). -/
theorem destination_is_last_param {i : Instr} {d : Param} (h : i.destination = some d) :
    ∃ k, i.opcode.paramCount = k + 1 ∧ i.params[k]? = some d := by
  cases i with
  | add | mul | lessThan | equals => exact ⟨2, rfl, h⟩
  | store => exact ⟨0, rfl, h⟩
  | out | jumpIfTrue | jumpIfFalse | halt => cases h

/-! ## Words in range -/

/-- What a comparison writes is representable from a width of two bits on (R130, R131, R174; log 9). -/
theorem inRange_one_or_zero {c : Config} (h0 : c.wordBits ≠ some 0) (h1 : c.wordBits ≠ some 1) (p : Prop) [Decidable p] :
    InRange c (if p then 1 else 0) := by
  intro n hn
  have hwidth : 1 ≤ n - 1 := by
    have hn0 : n ≠ 0 := by rintro rfl; exact h0 hn
    have hn1 : n ≠ 1 := by rintro rfl; exact h1 hn
    omega
  have hpow : (2 : Int) ^ 1 ≤ 2 ^ (n - 1) := pow_le_pow_right₀ (by decide) hwidth
  split <;> omega

/-- Every value that an instruction stores is representable: it is range-checked, or the result of a comparison. -/
theorem inRange_of_storedValue {i : Instr} {s : State} {v : Int} (h0 : s.config.wordBits ≠ some 0) (h1 : s.config.wordBits ≠ some 1)
    (h : StoredValue i s v) : InRange s.config v := by
  cases i with
  | add | mul | store => exact h.1
  | lessThan | equals =>
    obtain ⟨x, y, -, -, rfl⟩ := h
    exact inRange_one_or_zero h0 h1 _
  | out | jumpIfTrue | jumpIfFalse | halt => exact h.elim

/-- The value of an operand of the instruction at `pc` is a cell of memory in either mode. -/
theorem inRange_of_reads {s : State} {i : Instr} {k : Nat} {p : Param} {v : Int} (hw : WordsInRange s) (hat : InstrAt s i)
    (hk : i.params[k]? = some p) (hv : Reads s p v) : InRange s.config v := by
  obtain ⟨hcells, -⟩ := hw
  obtain ⟨-, rfl⟩ | ⟨-, hread⟩ := hv
  · exact hcells _ _ (read_of_instrAt_param hat hk)
  · exact hcells _ _ hread

theorem wordsInRange_effect {i : Instr} {s s' : State} (h0 : s.config.wordBits ≠ some 0) (h1 : s.config.wordBits ≠ some 1)
    (hw : WordsInRange s) (hat : InstrAt s i) (he : Effect i s s') : WordsInRange s' := by
  have ⟨hcells, hout⟩ := hw
  cases he with
  | @stores d v _ writable value =>
    obtain ⟨-, hlow, hlen⟩ := writable
    refine ⟨fun a x hx => ?_, hout⟩
    rw [State.setMem_mem, Memory.read_put _ _ _ _ hlow hlen] at hx
    split at hx
    · cases hx
      exact inRange_of_storedValue (s := s) h0 h1 value
    · exact hcells a x hx
  | outputs is value =>
    subst is
    refine ⟨hcells, fun x hx => ?_⟩
    cases hx
    exact inRange_of_reads (s := s) (k := 0) hw hat rfl value
  | jumps | stays => exact hw

theorem wordsInRange_complete {s : State} (h : WordsInRange s) (op : Opcode) (a : Int) : WordsInRange (complete op a s) := by
  rwa [WordsInRange, complete_mem, complete_config, complete_lastOutput]

/-! ## What raised an error -/

/-- A step that ends in `Faulted` has raised an error, of the fetch or of the instruction at `pc`. -/
theorem raises_of_steps_faulted {s t : State} (h : Steps s t) (ht : t.status = .faulted) :
    ∃ e, t = raiseError e s ∧ (FetchError s e ∨ ∃ i, InstrAt s i ∧ OperandError i s e) := by
  obtain ⟨-, rfl⟩ | ⟨i, s', -, -, -, he, rfl⟩ | ⟨i, e, hat, -, -, he, rfl⟩ | ⟨e, he, rfl⟩ := steps_cases h
  · cases ht
  · rw [complete_status, effect_status he, h.1] at ht
    cases ht
  · exact ⟨e, rfl, .inr ⟨i, hat, he⟩⟩
  · exact ⟨e, rfl, .inl he⟩

/-- In a state that meets the invariant, a step leaves a record only by raising an error. -/
theorem faulted_of_inv_of_error {s t : State} {e : ErrorRecord} (hi : Inv s) (h : Steps s t) (ht : t.error = some e) :
    t.status = .faulted := by
  have hiff : t.error = none ↔ t.status ≠ .faulted := (Proofs.everyStepKeepsTheInvariant s t hi h.2).error
  by_contra hne
  cases ht.symm.trans (hiff.2 hne)

end Sys2Proof.Machine
end

section
/-! THE OBLIGATIONS about the errors. -/

namespace Sys2Proof.Proofs

open Sys2Proof Sys2Proof.Machine Sys2Proof.Safety

/-- Settles O37, by the ways a step can end: a completed effect stores a checked value or a comparison's result, or outputs a cell, and the
other ends leave the cells and the last output alone. -/
theorem everyStepKeepsWordsInRange : Obligations.EveryStepKeepsWordsInRange := by
  intro s t h0 h1 hw h
  have hs := (step_cases h).1
  obtain ⟨-, rfl⟩ | ⟨i, s', hat, -, -, he, rfl⟩ | ⟨e, rfl⟩ := steps_ends ⟨hs, h⟩
  · exact hw
  · exact wordsInRange_complete (wordsInRange_effect h0 h1 hw hat he) _ _
  · exact hw

/-- Settles O23: a step that ends in `Faulted` has raised an error in its first state. -/
theorem errorsArePrecise : Obligations.ErrorsArePrecise := by
  intro s t h ht
  obtain ⟨e, rfl, -⟩ := raises_of_steps_faulted h ht
  exact ⟨e, rfl⟩

/-- Settles O24, by the errors of the fetch and those of the instruction at `pc`: of a read slot, of the range check, of the destination. -/
theorem errorRecordsTellTheirCause : Obligations.ErrorRecordsTellTheirCause := by
  intro s t e h ht herr
  obtain ⟨e', rfl, cause⟩ := raises_of_steps_faulted h ht
  obtain rfl : e' = e := Option.some.inj herr
  obtain fetch | ⟨i, hat, ⟨k, ⟨_, r⟩, hk, hread⟩ | ⟨v, hchecked, hrange, rfl⟩ | ⟨⟨_, r⟩, hd, hwrite⟩⟩ := cause
  · cases fetch with
    | outside hout => exact ⟨rfl, hout, .inl ⟨rfl, rfl, rfl, rfl⟩⟩
    | negative hr hw => exact ⟨rfl, hr, .inl ⟨hw, rfl⟩⟩
    | selfTest on out nz nh => exact ⟨on, rfl, rfl, out, nz, nh⟩
    | @unknown w hr h0 hn =>
      have hnot := (Opcode.ofNumber_eq_none_iff _).1 hn
      exact ⟨rfl, hr, .inr ⟨h0, congrArg some (by omega), by omega, by omega⟩⟩
    | @missing w op k hr h0 hn h1 hk hend =>
      exact ⟨rfl, .inr (by omega), .inr (.inl ⟨rfl, w, op, k, hr, h0, by omega, rfl, rfl, h1, hk, rfl⟩)⟩
  · obtain ⟨m, rfl, rfl⟩ | ⟨rfl, hout, rfl⟩ := hread
    · obtain ⟨hlow, hhigh⟩ := unknownMode_bounds hat hk
      exact ⟨rfl, hlow, hhigh, i, k, r, hat, rfl, rfl, hk⟩
    · exact ⟨rfl, hout, .inr (.inr (.inl ⟨rfl, i, k, hat, rfl, rfl, hk⟩))⟩
  · exact ⟨rfl, hrange, i, hat, rfl, hchecked⟩
  · obtain ⟨rfl, rfl⟩ | ⟨m, rfl, rfl⟩ | ⟨rfl, hout, rfl⟩ := hwrite
    · exact ⟨rfl, i, hat, rfl, hd, rfl⟩
    · obtain ⟨k, hslot, hk⟩ := destination_is_last_param hd
      obtain ⟨hlow, hhigh⟩ := unknownMode_bounds hat hk
      exact ⟨rfl, hlow, hhigh, i, k, r, hat, rfl, hslot, hk⟩
    · exact ⟨rfl, hout, .inr (.inr (.inr ⟨rfl, i, hat, rfl, rfl, hd⟩))⟩

/-- Settles O32: the check comes right after the halt test, and its record, whose cause is known, carries the `LAST_OP` that the invariant gives. -/
theorem selfTestFiresAfterANonZeroOutput : Obligations.SelfTestFiresAfterANonZeroOutput := by
  refine ⟨fun s w v hs hon hr h0 h99 hout hv => ?_, fun s t pc lastOp v hi h herr => ?_⟩
  · obtain ⟨-, fires, -⟩ := dispatchTestsHaltThenSelfTestThenOpcode s w hs hr h0
    exact fires h99 hon v hout hv
  · obtain ⟨hon, hpc, hop, hout, hv, -⟩ := errorRecordsTellTheirCause s t _ h (faulted_of_inv_of_error hi h herr) herr
    exact ⟨hon, hpc, hop.trans (hi.selfTest hon v hout hv), hout, hv⟩

/-- Settles O57, row by row of R151. -/
theorem eachErrorHasItsCodeAndName : Obligations.EachErrorHasItsCodeAndName :=
  ⟨fun _ _ _ => ⟨rfl, rfl⟩, fun _ _ _ _ => ⟨rfl, rfl⟩, fun _ _ _ _ _ => ⟨rfl, rfl⟩, fun _ _ _ _ => ⟨rfl, rfl⟩,
    fun _ _ _ => ⟨rfl, rfl⟩, fun _ _ _ => ⟨rfl, rfl⟩⟩

end Sys2Proof.Proofs
end

section
/-! SUPPORT. What the proofs about the host's interactions add to the laws: what construction and the run entry answer, how they keep the invariant,
when the results are read, and what the loop returns. -/

namespace Sys2Proof.Machine

open Sys2Proof.Safety

/-! ## The run entry's writes -/

/-- `M` with `v` at the valid address `a` where a `v` is given: what the run entry makes of memory (R183). -/
def Memory.putGiven (m : Memory) (a : Int) (v : Option Int) : Memory := v.elim m (m.put a)

@[simp] theorem Memory.putGiven_len (m : Memory) (a : Int) (v : Option Int) : (m.putGiven a v).len = m.len := by
  cases v <;> rfl

theorem Memory.read_putGiven {m : Memory} {a : Int} {v : Option Int} (h : v ≠ none → 0 ≤ a ∧ a < (m.len : Int)) (b : Int) :
    (m.putGiven a v).read b = if b = a ∧ v ≠ none then v else m.read b := by
  cases v with
  | none => simp [Memory.putGiven]
  | some x =>
    obtain ⟨h0, hlen⟩ := h nofun
    simpa [Memory.putGiven] using Memory.read_put m a x b h0 hlen

theorem Memory.putGiven_wf {m : Memory} {a : Int} {v : Option Int} (h : v ≠ none → 0 ≤ a ∧ a < (m.len : Int)) (hm : m.wf = true) :
    (m.putGiven a v).wf = true := by
  cases v with
  | none => exact hm
  | some x =>
    obtain ⟨h0, hlen⟩ := h nofun
    exact Memory.put_wf x h0 hlen hm

theorem writeRunCell_ok_iff (s : State) (a : Int) (v : Option Int) (t : State) :
    writeRunCell s a v = .ok t ↔ (v ≠ none → 0 ≤ a ∧ a < (s.mem.len : Int)) ∧ t = s.setMem (s.mem.putGiven a v) := by
  cases v with
  | none =>
    have hsame : s.setMem (s.mem.putGiven a none) = s := rfl
    simp [writeRunCell, hsame, eq_comm (a := s)]
  | some x => simp [writeRunCell, Memory.putGiven, memWrite_ok_iff]

theorem writeRunCell_error_iff (s : State) (a : Int) (v : Option Int) (e : ErrorRecord) :
    writeRunCell s a v = .error e ↔
      v ≠ none ∧ (a < 0 ∨ (s.mem.len : Int) ≤ a) ∧ e = .addressOutOfBounds .runEntry none .write none a := by
  cases v with
  | none => simp [writeRunCell]
  | some x => simp [writeRunCell, memWrite_error_iff]

theorem State.withInput_eq (s : State) (input : Option Int) : s.withInput input = s.setPendingInput (input.getD s.pendingInput) := by
  cases input <;> rfl

/-! ## The run entry -/

section
variable {noun verb input : Option Int} {s s₁ : State}

theorem enterRun_of_writes {s₂ : State} (h₁ : writeRunCell s 1 noun = .ok s₁) (h₂ : writeRunCell s₁ 2 verb = .ok s₂) :
    enterRun noun verb input s = (s₂.setPendingInput (input.getD s₂.pendingInput)).setStatus .running := by
  simp only [enterRun, h₁, h₂, State.withInput_eq]

theorem enterRun_of_noun_error {e : ErrorRecord} (h : writeRunCell s 1 noun = .error e) :
    enterRun noun verb input s = raiseError e s := by
  simp only [enterRun, h]

theorem enterRun_of_verb_error {e : ErrorRecord} (h₁ : writeRunCell s 1 noun = .ok s₁) (h₂ : writeRunCell s₁ 2 verb = .error e) :
    enterRun noun verb input s = raiseError e s₁ := by
  simp only [enterRun, h₁, h₂]

theorem optionFits_iff (c : Config) (v : Option Int) : optionFits c v = true ↔ ∀ x, v = some x → InRange c x := by
  cases v <;> simp [optionFits, wordFits_iff]

theorem runEntry_of_ready (hs : s.status = .ready) (hn : ∀ v, noun = some v → InRange s.config v)
    (hv : ∀ v, verb = some v → InRange s.config v) : runEntry noun verb input s = .next (enterRun noun verb input s) := by
  simp [runEntry, hs, (optionFits_iff ..).2 hn, (optionFits_iff ..).2 hv]

theorem runEntry_of_not_ready (hs : s.status ≠ .ready) : runEntry noun verb input s = .refused (.runNotReady s.status) := by
  unfold runEntry
  cases hst : s.status with
  | ready => exact absurd hst hs
  | running | halted | faulted => rfl

/-- A run entry that is answered was made in `Ready`, and answers the entered state. -/
theorem runEntry_cases {t : State} (h : runEntry noun verb input s = .next t) : s.status = .ready ∧ t = enterRun noun verb input s := by
  by_cases hs : s.status = .ready
  · simp only [runEntry, hs] at h
    split at h
    · cases h
    · split at h
      · cases h
      · exact ⟨hs, (Host.Outcome.next.inj h).symm⟩
  · rw [runEntry_of_not_ready hs] at h
    cases h

theorem run_of_runEntry {t : State} (h : runEntry noun verb input s = .next t) (budget : Nat) :
    run noun verb input budget s = runLoop budget t := by
  simp only [run, h]

end

/-! ## The invariant before the first step -/

theorem eq_constructed_of_construct {c : Config} {p : List Int} {s : State} (h : construct c p = .ok s) : s = State.constructed c p := by
  unfold construct at h
  split at h
  · exact (Except.ok.inj h).symm
  · cases h

/-- A write of the run entry keeps the invariant: the machine has not halted, so no halt word need stay in place. -/
theorem inv_writeRunCell {s t : State} {a : Int} {v : Option Int} (hi : Inv s) (hs : s.status = .ready)
    (h : writeRunCell s a v = .ok t) : Inv t ∧ t.status = .ready := by
  obtain ⟨hbounds, rfl⟩ := (writeRunCell_ok_iff ..).1 h
  exact ⟨{ memory := Memory.putGiven_wf hbounds hi.memory
           error := hi.error
           halted := fun hh => by cases hs.symm.trans hh
           lastOp := hi.lastOp
           output := hi.output
           selfTest := hi.selfTest }, hs⟩

/-- Starting the run keeps the invariant, whatever the pending input. -/
theorem inv_setStatus_running {s : State} (hi : Inv s) (hs : s.status = .ready) (x : Int) :
    Inv ((s.setPendingInput x).setStatus .running) where
  memory := hi.memory
  error := ⟨fun _ => nofun, fun _ => hi.error.2 (by rw [hs]; nofun)⟩
  halted := nofun
  lastOp := hi.lastOp
  output := hi.output
  selfTest := hi.selfTest

theorem inv_enterRun {s : State} (hi : Inv s) (hs : s.status = .ready) (noun verb input : Option Int) :
    Inv (enterRun noun verb input s) := by
  cases h₁ : writeRunCell s 1 noun with
  | error e => rw [enterRun_of_noun_error h₁]; exact inv_raiseError hi e
  | ok s₁ =>
    obtain ⟨hi₁, hs₁⟩ := inv_writeRunCell hi hs h₁
    cases h₂ : writeRunCell s₁ 2 verb with
    | error e => rw [enterRun_of_verb_error h₁ h₂]; exact inv_raiseError hi₁ e
    | ok s₂ =>
      obtain ⟨hi₂, hs₂⟩ := inv_writeRunCell hi₁ hs₁ h₂
      rw [enterRun_of_writes h₁ h₂]
      exact inv_setStatus_running hi₂ hs₂ _

/-! ## Results -/

theorem output_of_lastOutput {s : State} {v : Int} (hs : s.status = .halted) (hv : s.lastOutput = some v) : output s = .ok v := by
  simp only [output, hs, hv]

theorem output_of_cell_zero {s : State} {v : Int} (hs : s.status = .halted) (hn : s.lastOutput = none) (hv : s.mem.read 0 = some v) :
    output s = .ok v := by
  simp only [output, hs, hn, hv]

theorem output_of_not_halted {s : State} (hs : s.status ≠ .halted) : output s = .error (.outputNotHalted s.status) := by
  unfold output
  cases hst : s.status with
  | halted => exact absurd hst hs
  | ready | running | faulted => rfl

theorem readMemory_of_halted {s : State} (hs : s.status = .halted) : readMemory s = .ok s.mem.toList := by
  simp only [readMemory, hs]

theorem readMemory_of_not_halted {s : State} (hs : s.status ≠ .halted) : readMemory s = .error (.memoryNotHalted s.status) := by
  unfold readMemory
  cases hst : s.status with
  | halted => exact absurd hst hs
  | ready | running | faulted => rfl

theorem readStatus_of_ended {s : State} (hs : s.status = .halted ∨ s.status = .faulted) : readStatus s = .ok (s.status, s.error) := by
  obtain hs | hs := hs <;> simp only [readStatus, hs]

theorem readStatus_of_not_ended {s : State} (hs : s.status = .ready ∨ s.status = .running) :
    readStatus s = .error (.statusNotEnded s.status) := by
  obtain hs | hs := hs <;> simp only [readStatus, hs]

/-- A memory that has a cell has a cell 0. -/
theorem Memory.exists_read_zero {m : Memory} {a v : Int} (h : m.read a = some v) : ∃ x, m.read 0 = some x := by
  obtain ⟨⟨h0, hlen⟩, -⟩ := (Memory.read_eq_some_iff ..).1 h
  exact m.exists_read 0 (Int.le_refl 0) (by omega)

/-! ## What the loop returns -/

/-- The loop returns the state itself where it has ended, and else what it returns, with one less to its budget, from the next state. -/
theorem runLoop_some_cases {k : Nat} {s t : State} (h : runLoop k s = some t) :
    (s.status ≠ .running ∧ t = s) ∨ ∃ n u, k = n + 1 ∧ Steps s u ∧ runLoop n u = some t := by
  by_cases hs : s.status = .running
  · cases k with
    | zero => simp [runLoop, hs] at h
    | succ n =>
      obtain ⟨u, hu⟩ := step_is_next hs
      have hsteps : Steps s u := ⟨hs, hu⟩
      exact .inr ⟨n, u, rfl, hsteps, (runLoop_of_steps hsteps n).symm.trans h⟩
  · rw [runLoop_of_not_running hs] at h
    exact .inl ⟨hs, (Option.some.inj h).symm⟩

end Sys2Proof.Machine
end

section
/-! THE OBLIGATIONS about the host's interactions. -/

namespace Sys2Proof.Proofs

open Sys2Proof Sys2Proof.Machine Sys2Proof.Safety

/-- Settles O36: construction answers a constructed state, and each of the entry's actions keeps the invariant. -/
theorem constructionAndEntryMeetTheInvariant : Obligations.ConstructionAndEntryMeetTheInvariant := by
  refine ⟨fun c p s h => ?_, fun noun verb input s t hi h => ?_⟩
  · obtain rfl := eq_constructed_of_construct h
    exact inv_constructed c p
  · obtain ⟨hs, rfl⟩ := runEntry_cases h
    exact inv_enterRun hi hs noun verb input

/-- Settles O42, by which of the entry's two writes fails; the verb's cell is not the noun's, so the order of the writes does not show. -/
theorem runEntryWritesNounVerbAndInput : Obligations.RunEntryWritesNounVerbAndInput := by
  intro noun verb input s hs hn hv
  rw [runEntry_of_ready hs hn hv]
  have hnoun : (noun ≠ none → 1 < s.mem.len) → noun ≠ none → (0 : Int) ≤ 1 ∧ 1 < (s.mem.len : Int) :=
    fun hlen h => ⟨by decide, by exact_mod_cast hlen h⟩
  refine ⟨fun hlen₁ hlen₂ => ?_, fun hgiven hlen => ?_, fun hlen₁ hgiven hlen => ?_⟩
  · have hverb : verb ≠ none → (0 : Int) ≤ 2 ∧ 2 < ((s.mem.putGiven 1 noun).len : Int) := fun h =>
      ⟨by decide, by rw [Memory.putGiven_len]; exact_mod_cast hlen₂ h⟩
    rw [enterRun_of_writes ((writeRunCell_ok_iff ..).2 ⟨hnoun hlen₁, rfl⟩) ((writeRunCell_ok_iff ..).2 ⟨hverb, rfl⟩)]
    refine ⟨_, rfl, rfl, rfl, by simp, fun a => ?_, rfl, rfl, rfl, rfl, rfl⟩
    have hread : ((s.mem.putGiven 1 noun).putGiven 2 verb).read a =
        if a = 2 ∧ verb ≠ none then verb else if a = 1 ∧ noun ≠ none then noun else s.mem.read a := by
      rw [Memory.read_putGiven hverb, Memory.read_putGiven (hnoun hlen₁)]
    refine hread.trans ?_
    by_cases ha : a = 1 <;> simp [ha]
  · rw [enterRun_of_noun_error ((writeRunCell_error_iff ..).2 ⟨hgiven, .inr (by exact_mod_cast hlen), rfl⟩)]
    rfl
  · have hout : ((s.mem.putGiven 1 noun).len : Int) ≤ 2 := by rw [Memory.putGiven_len]; exact_mod_cast hlen
    rw [enterRun_of_verb_error ((writeRunCell_ok_iff ..).2 ⟨hnoun hlen₁, rfl⟩) ((writeRunCell_error_iff ..).2 ⟨hgiven, .inr hout, rfl⟩)]
    exact ⟨_, rfl, Memory.putGiven_len .., Memory.read_putGiven (hnoun hlen₁)⟩

/-- Settles O43, by the answer of the run entry in each status. -/
theorem aMachineRunsOnce : Obligations.AMachineRunsOnce :=
  fun _ _ _ _ hs => runEntry_of_not_ready hs

/-- Settles O44: the halt word that the invariant puts at `pc` is a cell of memory, so there is a cell 0 to fall back to. -/
theorem outputFallsBackToCellZero : Obligations.OutputFallsBackToCellZero := by
  intro s
  refine ⟨fun hs _ => output_of_lastOutput hs, fun hs hn _ => output_of_cell_zero hs hn, output_of_not_halted, fun hi hs => ?_⟩
  cases hout : s.lastOutput with
  | some v => exact ⟨v, output_of_lastOutput hs hout⟩
  | none =>
    obtain ⟨w, hw, -⟩ := hi.halted hs
    obtain ⟨x, hx⟩ := Memory.exists_read_zero hw
    exact ⟨x, output_of_cell_zero hs hout hx⟩

/-- Settles O45, by the answer of each result in each status. -/
theorem resultsAreReadAfterTheRun : Obligations.ResultsAreReadAfterTheRun := by
  intro s
  refine ⟨fun hs => ?_, readMemory_of_not_halted, output_of_not_halted, readStatus_of_ended, readStatus_of_not_ended⟩
  exact ⟨s.mem.toList, readMemory_of_halted hs, s.mem.toList_length, s.mem.read_toList⟩

/-- Settles O46, by induction on the budget: where the loop has not ended, it goes on from the next state with a smaller budget. -/
theorem runResultDoesNotDependOnTheBudget : Obligations.RunResultDoesNotDependOnTheBudget := by
  intro k
  induction k using Nat.strong_induction_on with
  | _ k ih =>
    intro s t h
    obtain ⟨hend, rfl⟩ | ⟨n, u, rfl, hsteps, hn⟩ := runLoop_some_cases h
    · exact ⟨hend, .refl _, fun j _ => runLoop_of_not_running hend j⟩
    · obtain ⟨hend, hreach, hlarger⟩ := ih n n.lt_succ_self u t hn
      refine ⟨hend, reaches_of_steps hsteps hreach, fun j hj => ?_⟩
      cases j with
      | zero => exact absurd hj n.not_succ_le_zero
      | succ j => exact (runLoop_of_steps hsteps j).trans (hlarger j (Nat.le_of_succ_le_succ hj))

/-- Settles O50: with no cell in memory the first fetch is outside it, and its error ends the run. -/
theorem theEmptyProgramFaultsAtTheFirstFetch : Obligations.TheEmptyProgramFaultsAtTheFirstFetch := by
  intro c input budget
  have hwrite : ∀ a, writeRunCell (State.constructed c []) a none = .ok (State.constructed c []) := fun _ => rfl
  have hentry := runEntry_of_ready (noun := none) (verb := none) (input := input) (s := State.constructed c []) rfl nofun nofun
  rw [enterRun_of_writes (hwrite 1) (hwrite 2)] at hentry
  have hrun := (run_of_runEntry hentry (budget + 1)).trans
    (runLoop_of_steps ⟨rfl, step_of_fetch_error rfl (fetchInstr_of_outside (.inr (Int.le_refl 0)))⟩ budget)
  exact ⟨_, _, rfl, hrun.trans (runLoop_of_not_running (by simp) budget), rfl, rfl, rfl⟩

end Sys2Proof.Proofs
end
